-- ==== Sys2Proof/Word.lean ====
section
/-! DEFINITION. The word types of the LZW CORE: everything the spec treats as bits is unsigned (00_scope.md R9). -/

namespace Sys2Proof

/-- A byte, 8 bits unsigned (R6, R131). -/
abbrev Byte := BitVec 8

/-- Half a byte: what the bitpacker holds between two codewords (R29, R38). -/
abbrev Nibble := BitVec 4

/-- A code or codeword, 12 bits (R6, R74). -/
abbrev Code := BitVec 12

/-- An input token, 10 bits: OP in bits 9:8, PAYLOAD in bits 7:0 (R70). -/
abbrev Token := BitVec 10

/-- A register of a status block, 32 bits (R39, R40), and the width of GEN (R27, R35). -/
abbrev Word32 := BitVec 32

/-- A byte sequence: a finite ordered list of bytes (R10). -/
abbrev Seq := List Byte

end Sys2Proof
end

