-- ==== Sys2Proof/Config.lean ====
section
/-! DEFINITION. What is fixed for the machine (R6, R7), what the platform chooses (R8), and the two model variants that
93_implementation_defined.md treats as a `parameter`. None of it is state (R45). No value of this hardware is left free:
every operation has the one result its rule gives. -/

namespace Sys2Proof

/-- NBASE: codes below it name one byte each, for ever (R6). -/
def nBase : Nat := 256

/-- CODE_LIMIT: the counter value that triggers a reseed (R6, R105). -/
def codeLimit : Nat := 4096

/-- MAX_SEQ_LEN: the longest byte sequence either engine holds (R7). -/
def maxSeqLen : Nat := 3841

/-- RESEED_READING of 93_implementation_defined.md: whether the miss that meets the limit inserts its sequence. -/
inductive ReseedReading where
  | insertThenReseed   -- the default, the spec's own rule R105
  | reseedInstead      -- the other reading of 90_conflicts.md C1, which the spec does not use
  deriving DecidableEq, Repr

/-- ABOVE_NEXT_POLICY of 93_implementation_defined.md: what a codeword above DEC.NEXT does. -/
inductive AboveNextPolicy where
  | literal   -- the default, R167: the not-yet-assigned branch, no error
  | refuse    -- the step has no meaning
  deriving DecidableEq, Repr

/-- The open parameters ENC_BASE and DEC_BASE (R8): the byte addresses of the two register blocks. -/
structure Bases where
  enc : Nat
  dec : Nat
  deriving DecidableEq, Repr

end Sys2Proof
end

