-- ==== Sys2Proof/Syntax.lean ====
section
/-! DEFINITION. The instructions: one constructor per row of spec/opcode_table.json. An engine executes one token per
step (R20, R70); which engine a token belongs to is given by the channel it arrives on, so it is part of the instruction
here and not of the token's bits. -/

namespace Sys2Proof

/-- The two agents of the hardware (R2, R20). -/
inductive Engine where
  | enc   -- the encode engine: lzw_encoder and the pack half of bitpacker
  | dec   -- the decode engine: lzw_decoder and the unpack half of bitpacker
  deriving DecidableEq, Repr

/-- The operation a token selects with its OP field (R71). -/
inductive Op where
  | data | finish | start | abort
  deriving DecidableEq, Repr

/-- The instruction set: the four tokens of each engine (R71). Only DATA has an operand, one byte (R72). -/
inductive Instr where
  | encData (c : Byte)   -- ENC.DATA, R142
  | encEnd               -- ENC.END, R143
  | encStart             -- ENC.START, R141
  | encAbort             -- ENC.ABORT, R144
  | decData (b : Byte)   -- DEC.DATA, R162
  | decEnd               -- DEC.END, R163
  | decStart             -- DEC.START, R161
  | decAbort             -- DEC.ABORT, R164
  deriving DecidableEq, Repr

/-- The engine an instruction belongs to. -/
def Instr.engine : Instr → Engine
  | .encData _ => .enc
  | .encEnd => .enc
  | .encStart => .enc
  | .encAbort => .enc
  | .decData _ => .dec
  | .decEnd => .dec
  | .decStart => .dec
  | .decAbort => .dec

end Sys2Proof
end

