-- ==== Sys2Proof/WellFormed.lean ====
section
/-! DEFINITION. The two checks the spec asks for on things from outside: a token's encoding (R71, R73) and the platform's
choice of base addresses (R8). An `Instr` needs no check of its own: its only operand is a byte, and all 256 bytes are
legal (R71). -/

namespace Sys2Proof

/-- A token is legal when it is a DATA token or its payload is zero (R71); the rest are the reserved encodings (R73). -/
def tokenWf (t : Token) : Bool :=
  t.extractLsb' 8 2 == 0b00#2 || t.extractLsb' 0 8 == 0x00#8

/-- The bases are legal when each is a multiple of 4 and the two 8-byte blocks do not overlap (R8). -/
def basesWf (b : Bases) : Bool :=
  b.enc % 4 == 0 && b.dec % 4 == 0 && (b.enc + 8 ≤ b.dec || b.dec + 8 ≤ b.enc)

end Sys2Proof
end

