-- ==== Sys2Proof/Decode.lean ====
section
/-! DEFINITION. From the 10 bits of a token to an instruction and back (30_encoding.md R70 to R73), and the same for the
bit numbering of spec/opcode_table.json. Decoding is total: every token is an instruction or is rejected by name. -/

namespace Sys2Proof

/-- A reserved encoding, by the operation it names and its nonzero payload (R73). -/
inductive DecodeError where
  | reservedEnd (payload : Byte)     -- 0x101 to 0x1FF
  | reservedStart (payload : Byte)   -- 0x201 to 0x2FF
  | reservedAbort (payload : Byte)   -- 0x301 to 0x3FF
  deriving DecidableEq, Repr

/-- OP = tok[9:8] (R70, R71). -/
def opOf (t : Token) : Op :=
  match (t.extractLsb' 8 2).toNat with
  | 0 => .data
  | 1 => .finish
  | 2 => .start
  | _ => .abort

/-- PAYLOAD = tok[7:0] (R70, R72). -/
def payloadOf (t : Token) : Byte := t.extractLsb' 0 8

/-- The DATA instruction of an engine. -/
def dataOf : Engine → Byte → Instr
  | .enc, c => .encData c
  | .dec, b => .decData b

/-- The END instruction of an engine. -/
def endOf : Engine → Instr
  | .enc => .encEnd
  | .dec => .decEnd

/-- The START instruction of an engine. -/
def startOf : Engine → Instr
  | .enc => .encStart
  | .dec => .decStart

/-- The ABORT instruction of an engine. -/
def abortOf : Engine → Instr
  | .enc => .encAbort
  | .dec => .decAbort

/-- The instruction a token stands for on the engine whose channel carries it, or the name of its reservation. -/
def decode (e : Engine) (t : Token) : Except DecodeError Instr :=
  match opOf t with
  | .data => .ok (dataOf e (payloadOf t))
  | .finish => if payloadOf t = 0 then .ok (endOf e) else .error (.reservedEnd (payloadOf t))
  | .start => if payloadOf t = 0 then .ok (startOf e) else .error (.reservedStart (payloadOf t))
  | .abort => if payloadOf t = 0 then .ok (abortOf e) else .error (.reservedAbort (payloadOf t))

/-- {op, payload} as one token (R70). -/
def tokenOf (op : BitVec 2) (payload : Byte) : Token := op ++ payload

/-- The token of an instruction, from the rows of R71. -/
def encode : Instr → Token
  | .encData c => tokenOf 0b00#2 c
  | .encEnd => tokenOf 0b01#2 0x00#8
  | .encStart => tokenOf 0b10#2 0x00#8
  | .encAbort => tokenOf 0b11#2 0x00#8
  | .decData b => tokenOf 0b00#2 b
  | .decEnd => tokenOf 0b01#2 0x00#8
  | .decStart => tokenOf 0b10#2 0x00#8
  | .decAbort => tokenOf 0b11#2 0x00#8

/-- Which channel a word of the opcode table goes to. The table gives ENC.x and DEC.x the same ten bits, because the
channel and not the token tells them apart (R70); bit 10, the first of the padding up to whole bytes, is the model's own
tag for it: 0 the encode engine, 1 the decode engine (DESIGN CHOICE, log entry 4). -/
def tableEngine (w : Nat) : Engine := if w < 1024 then .enc else .dec

/-- The ten bits of the token in a word of the opcode table. -/
def tableToken (w : Nat) : Token := BitVec.ofNat 10 w

/-- The instruction in a word numbered as spec/opcode_table.json numbers it: bits 9:0 the token, bit 10 the channel tag,
nothing above. Every row is one 10-bit token, so the row's own bit count decides nothing. -/
def decodeTableWord (_nbits w : Nat) : Option Instr :=
  if w < 2048 then
    match decode (tableEngine w) (tableToken w) with
    | .ok i => some i
    | .error _ => none
  else none

end Sys2Proof
end

