-- ==== Sys2Proof/Machine/State.lean ====
section
/-! DEFINITION. The state of the two engines, plain data (10_state.md), the reasons a step of the model can stop, and the
state after reset (R42, R220). -/

namespace Sys2Proof.Machine

/-- STATE of an engine (R22, R30). -/
inductive StreamState where
  | empty   -- a stream is open and nothing of it has been taken (ENC) or decoded (DEC)
  | run     -- ENC.S holds the current match; DEC.PREV is valid
  | done    -- END has been processed
  | error   -- an error has been entered
  deriving DecidableEq, Repr

/-- ERR of an engine: the cause codes of R201. The reserved values 6 and 7 are never produced, and cannot be written
down here (93_implementation_defined.md 2: `refuse`). -/
inductive Cause where
  | none | seq | badToken | abort | badFirst | overlong
  deriving DecidableEq, Repr

/-- DEC.PHASE (R36): which byte of the 3-byte group comes next. The value 3 is never written, and cannot be. -/
inductive GroupPhase where
  | byte0   -- 0: at a group boundary
  | byte1   -- 1: byte0 is held in H0
  | byte2   -- 2: A is decoded, B's high nibble is held in NIB
  deriving DecidableEq, Repr

/-- An item of an output channel (R53). -/
inductive OutItem where
  | byte (b : Byte)
  | eos
  deriving DecidableEq, Repr

/-- An engine's entry storage (R50): pairs of a code and its sequence, codes strictly rising, only codes 256 to 4095
listed. An unlisted code reads as its one byte below 256 and as no entry from 256 up. -/
abbrev Memory := List (Nat × Seq)

/-- A dictionary generation, the same for both engines (R105): the entries (ENC.DICT R25, DEC.TABLE R32), the next-code
counter NEXT (R26, R33) and the reseed count GEN (R27, R35). -/
structure Generation where
  entries : Memory
  next    : Code
  gen     : Word32
  deriving DecidableEq, Repr

/-- The encode engine (R22 to R29) and its output channel (R53). -/
structure Encoder where
  state : StreamState   -- R22
  err   : Cause         -- R23
  s     : Code          -- R24: the code of the current matched prefix
  dict  : Generation    -- R25, R26, R27
  par   : Bool          -- R28: true when codeword B of a group comes next
  nib   : Nibble        -- R29
  out   : List OutItem  -- R53: items put out and not yet taken by the host, oldest first
  deriving DecidableEq, Repr

/-- The decode engine (R30 to R38) and its output channel (R53). -/
structure Decoder where
  state : StreamState   -- R30
  err   : Cause         -- R31
  table : Generation    -- R32, R33, R35
  prev  : Seq           -- R34: the sequence put out for the previous codeword
  phase : GroupPhase    -- R36
  h0    : Byte          -- R37
  nib   : Nibble        -- R38
  out   : List OutItem  -- R53
  deriving DecidableEq, Repr

/-- The whole machine: the two engines, the tokens the host has offered to each and the engine has not yet taken (R52;
DESIGN CHOICE, log entry 1), and the host's schedule, whose head is the engine that moves next (R227; the model's own
field, DESIGN CHOICE, log entry 2). -/
structure State where
  enc   : Encoder
  dec   : Decoder
  encIn : List Token
  decIn : List Token
  sched : List Engine
  deriving DecidableEq, Repr

/-- Where the model stops. Neither reason is a behaviour of the hardware: both name a state the rules never reach (R43,
R44), so stopping there is safe. The errors of R201 are not here: they are states of the machine. -/
inductive Fault where
  /-- Raised by ENC.DATA and DEC.DATA on reading an entry the generation does not hold: `seq_E` and `seq_D` are defined
  on [0, NEXT) only (R25, R32). Safe. -/
  | entryAbsent (e : Engine) (k : Code)
  /-- Raised by DEC.DATA on taking the first byte of an empty sequence: `u[0]` is defined only when len(u) >= 1 (R10).
  Safe. -/
  | firstOfEmpty
  deriving DecidableEq, Repr

/-- Why an instruction has no meaning. -/
inductive Refusal where
  /-- An arm of exec that has no meaning yet. No arm of this model is left so. Safe. -/
  | notModelled (mnemonic : String)
  /-- Raised by DEC.DATA on a codeword above DEC.NEXT, and only under the variant ABOVE_NEXT_POLICY = REFUSE of
  93_implementation_defined.md, which the machine does not run at. Safe. -/
  | aboveNext (k : Code)
  deriving DecidableEq, Repr

/-- What an operation of one engine answers: the engine's next state, an error to be entered (R11 `raise Fault`), or a
stop of the model. -/
inductive Result (σ : Type) where
  | ok (x : σ)
  | raise (c : Cause)
  | stop (f : Fault)
  | refuse (r : Refusal)
  deriving DecidableEq, Repr

/-- The seed generation with a cleared reseed count (R100, R42). -/
def Generation.reset : Generation := { entries := [], next := 256#12, gen := 0#32 }

/-- The encode engine after reset (R42). -/
def Encoder.reset : Encoder :=
  { state := .empty, err := .none, s := 0#12, dict := Generation.reset, par := false, nib := 0#4, out := [] }

/-- The decode engine after reset (R42). -/
def Decoder.reset : Decoder :=
  { state := .empty, err := .none, table := Generation.reset, prev := [], phase := .byte0, h0 := 0#8, nib := 0#4,
    out := [] }

/-- The machine after hardware reset (R42, R220): both engines at their reset values, the channels empty. The schedule
is empty (DESIGN CHOICE, log entry 2). -/
def State.reset : State :=
  { enc := Encoder.reset, dec := Decoder.reset, encIn := [], decIn := [], sched := [] }

end Sys2Proof.Machine
end

