-- ==== Sys2Proof/Machine/Operands.lean ====
section
/-! DEFINITION. Operand forms: the zero extension of a DATA byte (R72) and the bit selections of the wire format (R54,
R75, R76). All are exact, unsigned and without carries (R109). -/

namespace Sys2Proof.Machine

/-- `zext_12(c)`: the base code of a byte (R72, R100). -/
def baseCode (c : Byte) : Code := c.setWidth 12

/-- `k[7:0]`: the byte a base code names, and byte2 of a group (R75, R103). -/
def codeLow8 (k : Code) : Byte := k.extractLsb' 0 8

/-- `k[11:4]`: byte0 of a group (R75). -/
def codeHigh8 (k : Code) : Byte := k.extractLsb' 4 8

/-- `k[3:0]`: the nibble of A that waits for byte1 (R121). -/
def codeLow4 (k : Code) : Nibble := k.extractLsb' 0 4

/-- `k[11:8]`: the nibble of B that goes into byte1 (R122). -/
def codeHigh4 (k : Code) : Nibble := k.extractLsb' 8 4

/-- `b[7:4]` (R126). -/
def byteHigh4 (b : Byte) : Nibble := b.extractLsb' 4 4

/-- `b[3:0]` (R126). -/
def byteLow4 (b : Byte) : Nibble := b.extractLsb' 0 4

/-- byte1 = {A[3:0], B[11:8]}, or {A[3:0], 0b0000} at the flush (R75, R122, R124). -/
def joinNibbles (hi lo : Nibble) : Byte := hi ++ lo

/-- A = {byte0, byte1[7:4]} (R76, R126). -/
def codeA (h0 b : Byte) : Code := h0 ++ byteHigh4 b

/-- B = {byte1[3:0], byte2} (R76, R127). -/
def codeB (nib : Nibble) (b : Byte) : Code := nib ++ b

end Sys2Proof.Machine
end

