-- ==== Sys2Proof/Machine/Ops.lean ====
section
/-! DEFINITION. The operations every instruction shares: the entry storage, the input and output channels, taking an
error (the hardware's one kind of exception) and the way an engine's result becomes the machine's next state. -/

namespace Sys2Proof.Machine

/-- The reseed reading the machine runs at: the default of 93_implementation_defined.md, rule R105 (DESIGN CHOICE, log
entry 8). -/
def reseedReading : ReseedReading := .insertThenReseed

/-- The treatment of a codeword above DEC.NEXT the machine runs at: the default, rule R167 (DESIGN CHOICE, log
entry 9). -/
def aboveNextPolicy : AboveNextPolicy := .literal

/-! ### Entry storage (R50, R51) -/

/-- The sequence listed at code k. -/
def Memory.get (k : Nat) : Memory → Option Seq
  | [] => none
  | (a, v) :: rest => if a = k then some v else Memory.get k rest

/-- List u at code k, in place, keeping the codes rising. -/
def Memory.set (k : Nat) (u : Seq) : Memory → Memory
  | [] => [(k, u)]
  | (a, v) :: rest =>
    if k < a then (k, u) :: (a, v) :: rest
    else if k = a then (k, u) :: rest
    else (a, v) :: Memory.set k u rest

/-- The least listed code below n whose sequence is u. -/
def Memory.find (n : Nat) (u : Seq) : Memory → Option Nat
  | [] => none
  | (a, v) :: rest => if a < n ∧ v = u then some a else Memory.find n u rest

/-- The codes listed, in order. -/
def Memory.codes (m : Memory) : List Nat := m.map Prod.fst

/-- The canonical form: every listed code lies in [256, 4096) and the codes strictly rise. A base code is never listed,
because it reads as its one byte without being listed. -/
def Memory.wf : Memory → Bool
  | [] => true
  | [(a, _)] => nBase ≤ a && a < codeLimit
  | (a, _) :: (b, v) :: rest => nBase ≤ a && a < b && Memory.wf ((b, v) :: rest)

/-! ### Channels (R52, R53) -/

/-- `Out` and `OutEos` of the encode engine: items are appended in order (R53). -/
def Encoder.emit (items : List OutItem) (e : Encoder) : Encoder := { e with out := e.out ++ items }

/-- `Out` and `OutEos` of the decode engine. -/
def Decoder.emit (items : List OutItem) (d : Decoder) : Decoder := { d with out := d.out ++ items }

/-- The tokens waiting on an engine's input channel, oldest first (R52). -/
def State.channel (e : Engine) (s : State) : List Token :=
  match e with
  | .enc => s.encIn
  | .dec => s.decIn

/-- The state with an engine's input channel replaced. -/
def State.setChannel (e : Engine) (ts : List Token) (s : State) : State :=
  match e with
  | .enc => { s with encIn := ts }
  | .dec => { s with decIn := ts }

/-- An engine's output channel (R53). -/
def State.output (e : Engine) (s : State) : List OutItem :=
  match e with
  | .enc => s.enc.out
  | .dec => s.dec.out

/-! ### Errors (R202, R203) -/

/-- STATE of an engine. -/
def State.streamState (e : Engine) (s : State) : StreamState :=
  match e with
  | .enc => s.enc.state
  | .dec => s.dec.state

/-- ERR of an engine. -/
def State.cause (e : Engine) (s : State) : Cause :=
  match e with
  | .enc => s.enc.err
  | .dec => s.dec.err

/-- Error entry, `raise Fault(cause)` on engine e (R203), applied to the state as it was before the token: so every
write and every output of the faulting step is undone, and only ERR and STATE change. There is no return from it: START
and reset are the ways out (R206). -/
def State.raiseFault (e : Engine) (c : Cause) (s : State) : State :=
  match e with
  | .enc => { s with enc := { s.enc with err := c, state := .error } }
  | .dec => { s with dec := { s.dec with err := c, state := .error } }

/-- The tests that DATA and END pass before they run (R140, R160): in ERROR the token is taken and ignored (R204), in
DONE it raises SEQ (R201), and otherwise the engine's own operation runs. -/
def State.gate (e : Engine) (s : State) (body : Host.Outcome State Fault Refusal) : Host.Outcome State Fault Refusal :=
  match s.streamState e with
  | .error => .next s
  | .done => .next (s.raiseFault e .seq)
  | .empty => body
  | .run => body

/-- ABORT: ignored in ERROR, and otherwise an error entry with cause ABORT, in DONE too (R144, R164, R204). -/
def State.takeAbort (e : Engine) (s : State) : State :=
  match s.streamState e with
  | .error => s
  | .done => s.raiseFault e .abort
  | .empty => s.raiseFault e .abort
  | .run => s.raiseFault e .abort

/-- A reserved token: ignored in ERROR, and otherwise an error entry with cause BAD_TOKEN, in DONE too (R73, R205). -/
def State.takeReserved (e : Engine) (s : State) : State :=
  match s.streamState e with
  | .error => s
  | .done => s.raiseFault e .badToken
  | .empty => s.raiseFault e .badToken
  | .run => s.raiseFault e .badToken

/-- The machine after an operation of the encode engine. -/
def State.commitEnc (s : State) : Result Encoder → Host.Outcome State Fault Refusal
  | .ok e => .next { s with enc := e }
  | .raise c => .next (s.raiseFault .enc c)
  | .stop f => .fault f
  | .refuse r => .refused r

/-- The machine after an operation of the decode engine. -/
def State.commitDec (s : State) : Result Decoder → Host.Outcome State Fault Refusal
  | .ok d => .next { s with dec := d }
  | .raise c => .next (s.raiseFault .dec c)
  | .stop f => .fault f
  | .refuse r => .refused r

end Sys2Proof.Machine
end

