-- ==== Sys2Proof/Machine/Bitpacker.lean ====
section
/-! DEFINITION. The bitpacker (41_bitpacker.md): the pack half of the encode engine, the unpack half of the decode
engine. -/

namespace Sys2Proof.Machine

/-- `PackA(k)` (R121): byte0 goes out, A's low nibble waits. -/
def Encoder.packA (k : Code) (e : Encoder) : Encoder :=
  { e.emit [.byte (codeHigh8 k)] with nib := codeLow4 k, par := true }

/-- `PackB(k)` (R122): byte1 and byte2 go out; NIB is left unchanged. -/
def Encoder.packB (k : Code) (e : Encoder) : Encoder :=
  { e.emit [.byte (joinNibbles e.nib (codeHigh4 k)), .byte (codeLow8 k)] with par := false }

/-- `Pack(k)` (R123): the one entry to the pack half. -/
def Encoder.pack (k : Code) (e : Encoder) : Encoder := if e.par then e.packB k else e.packA k

/-- `PackFlush()` (R124): a lone A gets its byte1 with a zero low nibble. -/
def Encoder.packFlush (e : Encoder) : Encoder :=
  if e.par then { e.emit [.byte (joinNibbles e.nib 0#4)] with par := false } else e

/-- `Unpack(b)` in its three phases (R125, R126, R127): the engine after it, and the codeword it completes, if any. -/
def Decoder.unpack (b : Byte) (d : Decoder) : Decoder × Option Code :=
  match d.phase with
  | .byte0 => ({ d with h0 := b, phase := .byte1 }, none)
  | .byte1 => ({ d with nib := byteLow4 b, phase := .byte2 }, some (codeA d.h0 b))
  | .byte2 => ({ d with phase := .byte0 }, some (codeB d.nib b))

/-- `UnpackEnd()` (R128): a lone byte0 or a pad nibble is dropped without a codeword, in every phase, and PHASE is left
as it is. -/
def Decoder.unpackEnd (d : Decoder) : Decoder × Option Code := (d, none)

end Sys2Proof.Machine
end

