-- ==== Sys2Proof/Machine/Dictionary.lean ====
section
/-! DEFINITION. The Dictionary and CodeTable primitives (40_dictionary.md R100 to R105), written once for both engines: a
`Generation` is ENC.DICT or DEC.TABLE with its NEXT and GEN. The primitives that depend on the reseed reading of
93_implementation_defined.md take it as an argument. Under the unused reading `reseedInstead` the counter may rest at
4096, which the 12 bits of NEXT hold as 0 (DESIGN CHOICE, log entry 8). -/

namespace Sys2Proof.Machine

/-- The value of the counter NEXT as a number. -/
def Generation.bound (r : ReseedReading) (g : Generation) : Nat :=
  match r with
  | .insertThenReseed => g.next.toNat
  | .reseedInstead => if g.next = 0#12 then codeLimit else g.next.toNat

/-- `seq_E(k)`, `seq_D(k)`, and so `TableRead(k)` (R25, R32, R103): a code below 256 names its own byte in every
generation (R100), any other code what is stored for it. -/
def Generation.seq (g : Generation) (k : Code) : Option Seq :=
  if k.toNat < nBase then some [codeLow8 k] else Memory.get k.toNat g.entries

/-- `DictFind(u)` (R101): the code below NEXT whose sequence is u. It is unique when it exists (R107); the search takes
the least, and the base codes come first. -/
def Generation.find (r : ReseedReading) (u : Seq) (g : Generation) : Option Code :=
  match u with
  | [b] =>
    if b.toNat < g.bound r then some (baseCode b)
    else (Memory.find (g.bound r) u g.entries).map (BitVec.ofNat 12)
  | _ => (Memory.find (g.bound r) u g.entries).map (BitVec.ofNat 12)

/-- `Seed(X)` (R100): only the 256 base entries remain, and NEXT is 256. GEN is not written. -/
def Generation.seed (g : Generation) : Generation := { g with entries := [], next := 256#12 }

/-- The reseed at the limit: `Seed(X)` and GEN + 1 modulo 2^32 (R105). -/
def Generation.reseed (g : Generation) : Generation := { g.seed with gen := g.gen + 1#32 }

/-- `Advance(X)` (R105): NEXT + 1, formed in 13 bits; on reaching 4096 the generation is reseeded in the same step. -/
def Generation.advance (g : Generation) : Generation :=
  let n : BitVec 13 := g.next.setWidth 13 + 1#13
  if n = 4096#13 then g.reseed else { g with next := n.setWidth 12 }

/-- Store u at NEXT. The base codes are hard-wired, so nothing is stored there; NEXT is never among them (R26, R33;
DEDUCED, log entry 15). -/
def Generation.store (u : Seq) (g : Generation) : Generation :=
  if g.next.toNat < nBase then g else { g with entries := Memory.set g.next.toNat u g.entries }

/-- `DictInsert(u)` and `TableInsert(u)` (R102, R104): store at NEXT, then advance. Under the unused reading the counter
rests at 4096, and the insertion that finds it there reseeds and inserts nothing (93_implementation_defined.md 3). -/
def Generation.insert (r : ReseedReading) (u : Seq) (g : Generation) : Generation :=
  match r with
  | .insertThenReseed => (g.store u).advance
  | .reseedInstead => if g.next = 0#12 then g.reseed else { g.store u with next := g.next + 1#12 }

end Sys2Proof.Machine
end

