-- ==== Sys2Proof/Machine/DecodeEngine.lean ====
section
/-! DEFINITION. The decode engine (43_decoder.md): the codeword step, the operation of each token on the engine's own
state, and the meaning of each instruction on the machine, with the tests of the dispatch rule R160 that come before
it. -/

namespace Sys2Proof.Machine

/-- DEC.START (R161): a fresh stream with a fresh CodeTable. Items already put out stay put out. -/
def Decoder.start (d : Decoder) : Decoder :=
  { d with
    table := { d.table.seed with gen := 0#32 }
    prev := []
    phase := .byte0
    h0 := 0#8
    nib := 0#4
    err := .none
    state := .empty }

/-- The end of the codeword step (R165): w is inserted and e is put out and held as PREV, unless w is too long. -/
def Decoder.putSeq (r : ReseedReading) (w e : Seq) (d : Decoder) : Result Decoder :=
  if maxSeqLen < w.length then .raise .overlong
  else .ok { d.emit (e.map .byte) with table := d.table.insert r w, prev := e }

/-- The not-yet-assigned branch of the codeword step (R165, R167): PREV and its own first byte. -/
def Decoder.codeAtNext (r : ReseedReading) (d : Decoder) : Result Decoder :=
  match d.prev with
  | [] => .stop .firstOfEmpty
  | x :: _ => d.putSeq r (d.prev ++ [x]) (d.prev ++ [x])

/-- The branch of a codeword the table holds (R165): PREV and the first byte of its sequence. -/
def Decoder.codeInTable (r : ReseedReading) (k : Code) (d : Decoder) : Result Decoder :=
  match d.table.seq k with
  | none => .stop (.entryAbsent .dec k)
  | some [] => .stop .firstOfEmpty
  | some (x :: rest) => d.putSeq r (d.prev ++ [x]) (x :: rest)

/-- The first codeword of a stream (R165, R168): a base code, put out as its byte; nothing is inserted. -/
def Decoder.firstCode (k : Code) (d : Decoder) : Result Decoder :=
  if nBase ≤ k.toNat then .raise .badFirst
  else .ok { d.emit [.byte (codeLow8 k)] with prev := [codeLow8 k], state := .run }

/-- `DecodeCode(k)` (R165). -/
def Decoder.decodeCode (r : ReseedReading) (p : AboveNextPolicy) (k : Code) (d : Decoder) : Result Decoder :=
  match d.state with
  | .empty => d.firstCode k
  | _ =>
    if k.toNat < d.table.bound r then d.codeInTable r k
    else if p = .refuse ∧ d.table.bound r < k.toNat then .refuse (.aboveNext k)
    else d.codeAtNext r

/-- DEC.DATA(b) in EMPTY or RUN (R162): the codeword parser. -/
def Decoder.data (r : ReseedReading) (p : AboveNextPolicy) (b : Byte) (d : Decoder) : Result Decoder :=
  match d.unpack b with
  | (d', none) => .ok d'
  | (d', some k) => d'.decodeCode r p k

/-- DEC.END in EMPTY or RUN (R163): DONE and Eos. -/
def Decoder.finish (d : Decoder) : Decoder :=
  { d.unpackEnd.1 with state := .done }.emit [.eos]

/-- DEC.DATA (R160, R162). -/
def execDecData (b : Byte) (s : State) : Host.Outcome State Fault Refusal :=
  s.gate .dec (s.commitDec (s.dec.data reseedReading aboveNextPolicy b))

/-- DEC.END (R160, R163). -/
def execDecEnd (s : State) : Host.Outcome State Fault Refusal :=
  s.gate .dec (s.commitDec (.ok s.dec.finish))

/-- DEC.START (R160, R161): legal in every state, ERROR included (R206). -/
def execDecStart (s : State) : Host.Outcome State Fault Refusal :=
  s.commitDec (.ok s.dec.start)

/-- DEC.ABORT (R160, R164). -/
def execDecAbort (s : State) : Host.Outcome State Fault Refusal :=
  .next (s.takeAbort .dec)

end Sys2Proof.Machine
end

