-- ==== Sys2Proof/Machine/EncodeEngine.lean ====
section
/-! DEFINITION. The encode engine (42_encoder.md): the operation of each token on the engine's own state, and the meaning
of each instruction on the machine, with the tests of the dispatch rule R140 that come before it. -/

namespace Sys2Proof.Machine

/-- ENC.START (R141): a fresh stream with a fresh Dictionary. Items already put out stay put out. -/
def Encoder.start (e : Encoder) : Encoder :=
  { e with
    dict := { e.dict.seed with gen := 0#32 }
    s := 0#12
    par := false
    nib := 0#4
    err := .none
    state := .empty }

/-- A miss of ENC.DATA (R142): emit the code of s, insert s+c, restart matching with s = c. -/
def Encoder.miss (r : ReseedReading) (u : Seq) (c : Byte) (e : Encoder) : Encoder :=
  let p := e.pack e.s
  { p with dict := p.dict.insert r u, s := baseCode c }

/-- ENC.DATA(c) in EMPTY or RUN (R142): the greedy match engine. -/
def Encoder.data (r : ReseedReading) (c : Byte) (e : Encoder) : Result Encoder :=
  match e.state with
  | .empty => .ok { e with s := baseCode c, state := .run }
  | _ =>
    match e.dict.seq e.s with
    | none => .stop (.entryAbsent .enc e.s)
    | some s =>
      match e.dict.find r (s ++ [c]) with
      | some k => .ok { e with s := k }
      | none => .ok (e.miss r (s ++ [c]) c)

/-- ENC.END in EMPTY or RUN (R143): emit the last match, flush, DONE, Eos. -/
def Encoder.finish (e : Encoder) : Encoder :=
  let packed := if e.state = .run then e.pack e.s else e
  { packed.packFlush with state := .done }.emit [.eos]

/-- ENC.DATA (R140, R142). -/
def execEncData (c : Byte) (s : State) : Host.Outcome State Fault Refusal :=
  s.gate .enc (s.commitEnc (s.enc.data reseedReading c))

/-- ENC.END (R140, R143). -/
def execEncEnd (s : State) : Host.Outcome State Fault Refusal :=
  s.gate .enc (s.commitEnc (.ok s.enc.finish))

/-- ENC.START (R140, R141): legal in every state, ERROR included (R206). -/
def execEncStart (s : State) : Host.Outcome State Fault Refusal :=
  s.commitEnc (.ok s.enc.start)

/-- ENC.ABORT (R140, R144). -/
def execEncAbort (s : State) : Host.Outcome State Fault Refusal :=
  .next (s.takeAbort .enc)

end Sys2Proof.Machine
end

