-- ==== Sys2Proof/Machine/Dispatch.lean ====
section
/-! DEFINITION. One arm per instruction: which meaning runs. -/

namespace Sys2Proof.Machine

def exec (i : Instr) (s : State) : Host.Outcome State Fault Refusal :=
  match i with
  | .encData c => Sys2Proof.Machine.execEncData c s
  | .encEnd => Sys2Proof.Machine.execEncEnd s
  | .encStart => Sys2Proof.Machine.execEncStart s
  | .encAbort => Sys2Proof.Machine.execEncAbort s
  | .decData b => Sys2Proof.Machine.execDecData b s
  | .decEnd => Sys2Proof.Machine.execDecEnd s
  | .decStart => Sys2Proof.Machine.execDecStart s
  | .decAbort => Sys2Proof.Machine.execDecAbort s

end Sys2Proof.Machine
end

