-- ==== Sys2Proof/Machine/Fetch.lean ====
section
/-! DEFINITION. Which token is taken next, and what taking it does. The hardware fetches nothing (R64): an engine takes
the oldest token of its own channel (R52, R60), and the host's schedule says whose turn it is (R227; DESIGN CHOICE, log
entry 2). -/

namespace Sys2Proof.Machine

/-- Engine e takes the oldest token of its channel. Without one it waits and keeps all its state (R212). -/
def State.take (e : Engine) (s : State) : Option (Engine × Token) × State :=
  match s.channel e with
  | [] => (none, s)
  | t :: ts => (some (e, t), s.setChannel e ts)

/-- The token the next step runs, and the machine without it. The head of the schedule moves; with an empty schedule
an engine that has a token offered moves (R227), the encode engine first. -/
def State.fetch (s : State) : Option (Engine × Token) × State :=
  match s.sched with
  | e :: rest => { s with sched := rest }.take e
  | [] =>
    match s.encIn with
    | [] => s.take .dec
    | _ :: _ => s.take .enc

/-- An engine's dispatch of one token (R140, R160): the instruction it decodes to runs; a reserved token raises
BAD_TOKEN or is ignored (R73). -/
def takeToken (e : Engine) (t : Token) (s : State) : Host.Outcome State Fault Refusal :=
  match decode e t with
  | .ok i => exec i s
  | .error _ => .next (s.takeReserved e)

/-- An engine takes a list of tokens, one after the other (R60), stopping where the model stops. -/
def takeTokens (e : Engine) : List Token → State → Host.Outcome State Fault Refusal
  | [], s => .next s
  | t :: ts, s =>
    match takeToken e t s with
    | .next s' => takeTokens e ts s'
    | .fault f => .fault f
    | .refused r => .refused r

/-- Put a token at the head of an engine's channel and give that engine the next turn. -/
def State.placeToken (e : Engine) (t : Token) (s : State) : State :=
  { s.setChannel e (t :: s.channel e) with sched := e :: s.sched }

/-- The same for a word of the opcode table; a word that is no token places nothing. -/
def State.placeWord (w : Nat) (s : State) : State :=
  if w < 2048 then s.placeToken (tableEngine w) (tableToken w) else s

end Sys2Proof.Machine
end

