-- ==== Sys2Proof/Machine/Step.lean ====
section
/-! DEFINITION. The step: one token of one engine, or one turn in which nothing is taken (R12, R20). -/

namespace Sys2Proof.Machine

/-- One step of the machine. -/
def step (s : State) : Host.Outcome State Fault Refusal :=
  match s.fetch with
  | (none, s') => .next s'
  | (some (e, t), s') => takeToken e t s'

/-- The machine with a word of spec/opcode_table.json as the very next thing step runs: the token at the head of its
engine's channel, and the turn that engine's (log entries 3 and 4). Every row is one token, so the row's own bit count
decides nothing. -/
def State.withFetchWord (s : State) (_nbits w : Nat) : State := s.placeWord w

end Sys2Proof.Machine
end

