-- ==== Sys2Proof/Machine/Flags.lean ====
section
/-! DEFINITION. What the host can see of an engine's state: the read-only STATUS and GEN registers (R39, R40) and the
level outputs `done` and `error` (R208). All are views of the state; none is storage. -/

namespace Sys2Proof.Machine

/-- The encoding of STATE (R22, R30). -/
def StreamState.bits : StreamState → BitVec 2
  | .empty => 0#2
  | .run => 1#2
  | .done => 2#2
  | .error => 3#2

/-- The encoding of ERR (R201). -/
def Cause.bits : Cause → BitVec 3
  | .none => 0#3
  | .seq => 1#3
  | .badToken => 2#3
  | .abort => 3#3
  | .badFirst => 4#3
  | .overlong => 5#3

/-- The encoding of DEC.PHASE (R36). -/
def GroupPhase.bits : GroupPhase → BitVec 2
  | .byte0 => 0#2
  | .byte1 => 1#2
  | .byte2 => 2#2

/-- STATUS from its fields (R39): bits 31:28 and 15:8 read 0. -/
def statusWord (next : Code) (parity : BitVec 1) (groupPos : BitVec 2) (err : BitVec 3) (state : BitVec 2) : Word32 :=
  0#4 ++ next ++ 0#8 ++ parity ++ groupPos ++ err ++ state

/-- ENC's STATUS: GROUP_POS is `zext_2(ENC.PAR)` and PARITY is ENC.PAR (R39). -/
def Encoder.status (e : Encoder) : Word32 :=
  statusWord e.dict.next (BitVec.ofBool e.par) ((BitVec.ofBool e.par).setWidth 2) e.err.bits e.state.bits

/-- DEC's STATUS: GROUP_POS is DEC.PHASE and PARITY is 1 when PHASE is 2 (R39). -/
def Decoder.status (d : Decoder) : Word32 :=
  statusWord d.table.next (BitVec.ofBool (d.phase == .byte2)) d.phase.bits d.err.bits d.state.bits

/-- The GEN register of ENC (R40). -/
def Encoder.genReg (e : Encoder) : Word32 := e.dict.gen

/-- The GEN register of DEC (R40). -/
def Decoder.genReg (d : Decoder) : Word32 := d.table.gen

/-- STATUS of an engine. -/
def State.status (e : Engine) (s : State) : Word32 :=
  match e with
  | .enc => s.enc.status
  | .dec => s.dec.status

/-- GEN of an engine. -/
def State.genReg (e : Engine) (s : State) : Word32 :=
  match e with
  | .enc => s.enc.genReg
  | .dec => s.dec.genReg

/-- The level output `done`: 1 exactly when STATE = DONE (R208). -/
def State.doneLevel (e : Engine) (s : State) : Bool := s.streamState e == .done

/-- The level output `error`: 1 exactly when STATE = ERROR (R208). -/
def State.errorLevel (e : Engine) (s : State) : Bool := s.streamState e == .error

end Sys2Proof.Machine
end

