-- ==== Sys2Proof/Machine/HostPort.lean ====
section
/-! DEFINITION. What the host does to the machine between token steps (R229): reset, offering tokens, taking output,
reading and writing the register blocks. -/

namespace Sys2Proof.Machine

/-- Hardware reset (R220): every element of both engines at its reset value, the output channels emptied, the tokens not
yet taken discarded. Nothing of the state before survives. -/
def State.hostReset (_s : State) : State := State.reset

/-- The host offers a token on an engine's input channel: it comes after those already offered (R52). -/
def State.offer (e : Engine) (t : Token) (s : State) : State := s.setChannel e (s.channel e ++ [t])

/-- The host takes the oldest output item of an engine, if there is one (R53). -/
def State.collect (e : Engine) (s : State) : Option OutItem × State :=
  match e with
  | .enc =>
    match s.enc.out with
    | [] => (none, s)
    | x :: rest => (some x, { s with enc := { s.enc with out := rest } })
  | .dec =>
    match s.dec.out with
    | [] => (none, s)
    | x :: rest => (some x, { s with dec := { s.dec with out := rest } })

/-- A read of `width` bits at a byte offset of an engine's register block (R56, R57): 32 bits at 0x0 is STATUS, 32 bits
at 0x4 is GEN, anything else reads 0. -/
def State.blockRead (e : Engine) (offset width : Nat) (s : State) : Word32 :=
  if width = 32 ∧ offset = 0 then s.status e
  else if width = 32 ∧ offset = 4 then s.genReg e
  else 0#32

/-- The engine and the offset a byte address selects: each block is 8 bytes at its base (R56). Any other address is not
this hardware's. -/
def blockOf (b : Bases) (addr : Nat) : Option (Engine × Nat) :=
  if b.enc ≤ addr ∧ addr < b.enc + 8 then some (.enc, addr - b.enc)
  else if b.dec ≤ addr ∧ addr < b.dec + 8 then some (.dec, addr - b.dec)
  else none

/-- A register read by address (R57). It answers a value and no state, because no read changes anything; an address
outside both blocks gets no answer from this hardware. -/
def busRead (b : Bases) (addr width : Nat) (s : State) : Option Word32 :=
  match blockOf b addr with
  | some (e, offset) => some (s.blockRead e offset width)
  | none => none

/-- A register write by address: ignored (R57). -/
def busWrite (_b : Bases) (_addr _width _value : Nat) (s : State) : State := s

/-- The end of a run of one engine, in success: STATE is DONE, which only END enters, appending Eos (R143, R163, R228). -/
def State.endedWell (e : Engine) (s : State) : Bool := s.streamState e == .done

/-- The end of a run of one engine, in failure: STATE is ERROR (R228). The test is on STATE alone, whatever is out: R228
adds that no Eos is among the items since START, but an error entered from DONE keeps the Eos that END put out (R144,
R203), and such a run counts as ended in failure too (DESIGN CHOICE, log entry 22). -/
def State.endedBadly (e : Engine) (s : State) : Bool := s.streamState e == .error

end Sys2Proof.Machine
end

