-- ==== Sys2Proof/Machine/Notation.lean ====
section
/-! DEFINITION. Programs of tokens as the spec writes them (R80, R81): the operand spellings of DATA, the three hex digits
of a token, and the pseudo-operations, which expand into instructions before anything is executed. -/

namespace Sys2Proof.Machine

/-- The three spellings of a byte operand (R80). -/
inductive ByteLit where
  | hex (b : Byte)   -- 0xNN
  | dec (n : Nat)    -- a decimal number from 0 to 255
  | chr (c : Char)   -- a character in single quotes
  deriving DecidableEq, Repr

/-- The ASCII code of a character; a character outside ASCII has none (R80). -/
def asciiCode (c : Char) : Option Byte := if c.toNat < 128 then some (BitVec.ofNat 8 c.toNat) else none

/-- The byte an operand spelling stands for, if it is a legal one (R80). -/
def ByteLit.value : ByteLit → Option Byte
  | .hex b => some b
  | .dec n => if n < 256 then some (BitVec.ofNat 8 n) else none
  | .chr c => asciiCode c

/-- The ASCII codes of a text, in order (R81). -/
def asciiBytes : List Char → Option (List Byte)
  | [] => some []
  | c :: cs =>
    match asciiCode c, asciiBytes cs with
    | some b, some bs => some (b :: bs)
    | _, _ => none

/-- One line of a program: an instruction or a pseudo-operation (R80, R81). -/
inductive Line where
  | instr (i : Instr)
  | bytes (e : Engine) (bs : List Byte)
  | text (e : Engine) (cs : List Char)
  | compress (bs : List Byte)
  | decompress (bs : List Byte)
  deriving DecidableEq, Repr

/-- START, the bytes as DATA, END: one whole stream on an engine (R14, R81). -/
def streamOf (e : Engine) (bs : List Byte) : List Instr := startOf e :: (bs.map (dataOf e) ++ [endOf e])

/-- The instructions a line expands into (R81). -/
def Line.expand : Line → Option (List Instr)
  | .instr i => some [i]
  | .bytes e bs => some (bs.map (dataOf e))
  | .text e cs => (asciiBytes cs).map (fun bs => bs.map (dataOf e))
  | .compress bs => some (streamOf .enc bs)
  | .decompress bs => some (streamOf .dec bs)

/-- A hex digit as the notation writes it. -/
def hexDigit (n : Nat) : Char :=
  if n < 10 then Char.ofNat (48 + n) else Char.ofNat (55 + n)

/-- A token as three hex digits (R80): 0x041 is ['0', '4', '1']. -/
def tokenHex (t : Token) : List Char :=
  [hexDigit (t.toNat / 256), hexDigit (t.toNat / 16 % 16), hexDigit (t.toNat % 16)]

end Sys2Proof.Machine
end

