-- ==== Sys2Proof/Machine/Wire.lean ====
section
/-! DEFINITION. The wire format as a whole (R75 to R78): what a list of codewords is as bytes, and back. The engines
produce and take it a byte at a time (Bitpacker.lean); these two functions are the format they are held to. -/

namespace Sys2Proof.Machine

/-- The bytes of a list of codewords: three for each pair, two for a lone last one with a zero pad nibble (R75). -/
def wirePack : List Code → List Byte
  | [] => []
  | [a] => [codeHigh8 a, joinNibbles (codeLow4 a) 0#4]
  | a :: b :: rest => codeHigh8 a :: joinNibbles (codeLow4 a) (codeHigh4 b) :: codeLow8 b :: wirePack rest

/-- The codewords of a list of bytes (R76, R78): groups are found by counting from the start; a lone byte at the end
holds no codeword. -/
def wireUnpack : List Byte → List Code
  | [] => []
  | [_] => []
  | [b0, b1] => [codeA b0 b1]
  | b0 :: b1 :: b2 :: rest => codeA b0 b1 :: codeB (byteLow4 b1) b2 :: wireUnpack rest

end Sys2Proof.Machine
end

