-- ==== Sys2Proof/Safety.lean ====
section
/-! DEFINITION. What counts as a safe machine, in the terms claims use: the invariants the rules keep (R43, R44, R107,
R23, R201), and what a run of tokens packs. -/

namespace Sys2Proof.Machine

/-- Items 1 and 2 of R43 and R44: NEXT lies in [256, 4095] (its upper end by its 12 bits) and the storage holds exactly
the codes from 256 to NEXT - 1. With the hard-wired base codes the domain is exactly [0, NEXT). -/
def Generation.Domain (g : Generation) : Prop :=
  nBase ≤ g.next.toNat ∧ Memory.codes g.entries = List.range' nBase (g.next.toNat - nBase)

/-- Items 2 and 4 of R107, which the encode engine's rules keep: a dynamic entry is an entry of a smaller code extended
by one byte, and no two codes name the same sequence. -/
def Generation.Shape (g : Generation) : Prop :=
  (∀ (k : Code) (u : Seq), nBase ≤ k.toNat → g.seq k = some u →
    ∃ (j : Code) (p : Seq) (c : Byte), j.toNat < k.toNat ∧ g.seq j = some p ∧ u = p ++ [c]) ∧
  (∀ (i j : Code) (u : Seq), g.seq i = some u → g.seq j = some u → i = j)

/-- What the decode engine's rules keep of its entries on every stream, malformed ones included: a dynamic entry has 2 to
MAX_SEQ_LEN bytes (R104). -/
def Generation.Bounded (g : Generation) : Prop :=
  ∀ (k : Code) (u : Seq), nBase ≤ k.toNat → g.seq k = some u → 2 ≤ u.length ∧ u.length ≤ maxSeqLen

/-- The encode engine's invariants (R43 items 1 to 4, R107), with what R22, R23 and R201 say of STATE and ERR: ERR is
NONE exactly outside ERROR, this engine raises only SEQ, BAD_TOKEN and ABORT, and in EMPTY nothing has been inserted or
packed. -/
structure Encoder.Inv (e : Encoder) : Prop where
  domain : e.dict.Domain
  shape  : e.dict.Shape
  match_present : e.state = .run → e.s.toNat < e.dict.next.toNat
  done_flushed  : e.state = .done → e.par = false
  err_iff       : e.err = .none ↔ e.state ≠ .error
  err_own       : e.err ≠ .badFirst ∧ e.err ≠ .overlong
  empty_fresh   : e.state = .empty → e.dict.next = 256#12 ∧ e.dict.gen = 0#32 ∧ e.par = false

/-- The decode engine's invariants (R44; its item 4 holds by the type of PHASE), with what R23, R30 and R31 say of STATE
and ERR: in EMPTY nothing has been inserted and no codeword is half taken. -/
structure Decoder.Inv (d : Decoder) : Prop where
  domain  : d.table.Domain
  bounded : d.table.Bounded
  prev_len : d.state = .run → 1 ≤ d.prev.length ∧ d.prev.length ≤ maxSeqLen
  err_iff  : d.err = .none ↔ d.state ≠ .error
  empty_fresh : d.state = .empty → d.table.next = 256#12 ∧ d.table.gen = 0#32 ∧ d.phase ≠ .byte2

/-- The machine's invariant: each engine's own (R20: nothing relates the two). -/
structure State.Inv (s : State) : Prop where
  enc : s.enc.Inv
  dec : s.dec.Inv

/-- The tokens of one whole stream (R14, R81): START, the bytes as DATA, END. -/
def streamTokens (bs : List Byte) : List Token := 0x200#10 :: (bs.map (tokenOf 0b00#2) ++ [0x100#10])

/-- The tokens of a stream whose end has not come: START and the bytes as DATA. -/
def openTokens (bs : List Byte) : List Token := 0x200#10 :: bs.map (tokenOf 0b00#2)

/-- The codeword the encode engine packs when it takes token t, if any: that of its match s on a miss and at END (R120,
R142, R143). -/
def State.packed (t : Token) (s : State) : Option Code :=
  match s.enc.state, decode .enc t with
  | .run, .ok (.encData c) =>
    match s.enc.dict.seq s.enc.s with
    | none => none
    | some u =>
      match s.enc.dict.find reseedReading (u ++ [c]) with
      | none => some s.enc.s
      | some _ => none
  | .run, .ok .encEnd => some s.enc.s
  | _, _ => none

/-- What the encode engine packs over a list of tokens: each codeword with the generation it is packed from, as that
generation stands before the step's own insertion (R106, R142 corner case 3). -/
def packedOver : List Token → State → List (Code × Generation)
  | [], _ => []
  | t :: ts, s =>
    match takeToken .enc t s with
    | .next s' =>
      match s.packed t with
      | some k => (k, s.enc.dict) :: packedOver ts s'
      | none => packedOver ts s'
    | .fault _ => []
    | .refused _ => []

/-- The codewords alone. -/
def codesOver (ts : List Token) (s : State) : List Code := (packedOver ts s).map Prod.fst

/-- The sequences the packed codewords name, each in the generation it is packed from. -/
def seqsOver (ts : List Token) (s : State) : List Seq := (packedOver ts s).filterMap (fun x => x.2.seq x.1)

/-- The codewords the unpack half completes over a list of wire bytes (R125 to R127). -/
def unpackedOver : List Byte → Decoder → List Code
  | [], _ => []
  | b :: bs, d =>
    match d.unpack b with
    | (d', none) => unpackedOver bs d'
    | (d', some k) => k :: unpackedOver bs d'

/-- The codeword step over a list of codewords, at the machine's own parameters (R165). -/
def decodeOver : List Code → Decoder → Result Decoder
  | [], d => .ok d
  | k :: ks, d =>
    match d.decodeCode reseedReading aboveNextPolicy k with
    | .ok d' => decodeOver ks d'
    | .raise c => .raise c
    | .stop f => .stop f
    | .refuse r => .refuse r

end Sys2Proof.Machine
end

