-- ==== Sys2Proof/Certificates/Slice0/Obligations.lean ====
section
/-! DEFINITION. What is claimed of the machine, each statement after the numbered rules of spec/ it cites in
OBLIGATIONS.json. Nothing is proved here. -/

open Sys2Proof Sys2Proof.Machine

/-! ### Encodings (30_encoding.md) -/

/-- R70, R71, R73: a few tokens written out bit by bit, and what each stands for. -/
def Obligations.TokenWordsReadRight : Prop :=
  decode .enc 0b0001000001#10 = .ok (.encData 0x41#8) ∧
  decode .dec 0b0011111111#10 = .ok (.decData 0xFF#8) ∧
  decode .enc 0b0100000000#10 = .ok .encEnd ∧
  decode .enc 0b1000000000#10 = .ok .encStart ∧
  decode .enc 0b1100000000#10 = .ok .encAbort ∧
  decode .dec 0b0100000000#10 = .ok .decEnd ∧
  decode .dec 0b1000000000#10 = .ok .decStart ∧
  decode .dec 0b1100000000#10 = .ok .decAbort ∧
  decode .enc 0b0100000001#10 = .error (.reservedEnd 0x01#8) ∧
  decode .dec 0b1011111111#10 = .error (.reservedStart 0xFF#8) ∧
  decode .enc 0b1110000000#10 = .error (.reservedAbort 0x80#8)

/-- R71, R73: decoding and encoding agree. Every instruction, at every operand, is what its token decodes to on its own
engine; and a token that decodes at all is the token of the instruction it decodes to, and of that engine. -/
def Obligations.DecodeEncodeAgree : Prop :=
  (∀ i : Instr, decode i.engine (encode i) = .ok i) ∧
  (∀ (e : Engine) (t : Token) (i : Instr), decode e t = .ok i → encode i = t ∧ i.engine = e)

/-- R71: the opcode map. Every payload is a DATA encoding; END, START and ABORT have exactly one encoding each. -/
def Obligations.OpcodeMap : Prop :=
  ∀ t : Token,
    (t.extractLsb' 8 2 = 0b00#2 →
      decode .enc t = .ok (.encData (t.extractLsb' 0 8)) ∧ decode .dec t = .ok (.decData (t.extractLsb' 0 8))) ∧
    (decode .enc t = .ok .encEnd ↔ t = 0x100#10) ∧ (decode .dec t = .ok .decEnd ↔ t = 0x100#10) ∧
    (decode .enc t = .ok .encStart ↔ t = 0x200#10) ∧ (decode .dec t = .ok .decStart ↔ t = 0x200#10) ∧
    (decode .enc t = .ok .encAbort ↔ t = 0x300#10) ∧ (decode .dec t = .ok .decAbort ↔ t = 0x300#10)

/-- R73: the reserved encodings, how many tokens are of each kind, and what taking a reserved one does. -/
def Obligations.ReservedTokens : Prop :=
  (∀ (e : Engine) (t : Token) (s : State), t.extractLsb' 8 2 ≠ 0b00#2 → t.extractLsb' 0 8 ≠ 0x00#8 →
    (∀ i, decode e t ≠ .ok i) ∧
    (s.streamState e ≠ .error → takeToken e t s = .next (s.raiseFault e .badToken)) ∧
    (s.streamState e = .error → takeToken e t s = .next s)) ∧
  ((List.range 1024).map (BitVec.ofNat 10)).countP (fun t => t.extractLsb' 8 2 == 0b00#2) = 256 ∧
  ((List.range 1024).map (BitVec.ofNat 10)).countP
    (fun t => t.extractLsb' 8 2 != 0b00#2 && t.extractLsb' 0 8 == 0x00#8) = 3 ∧
  ((List.range 1024).map (BitVec.ofNat 10)).countP
    (fun t => t.extractLsb' 8 2 != 0b00#2 && t.extractLsb' 0 8 != 0x00#8) = 765

/-- R80, R81: the pseudo-operations expand into the instructions the spec gives, and a stream's instructions encode to
START, the bytes as DATA, END. -/
def Obligations.PseudoOperationsExpand : Prop :=
  (∀ (e : Engine) (bs : List Byte), (Line.bytes e bs).expand = some (bs.map (dataOf e))) ∧
  (∀ (e : Engine) (cs : List Char) (bs : List Byte),
    bs.map BitVec.toNat = cs.map Char.toNat → (∀ c ∈ cs, c.toNat < 128) →
    (Line.text e cs).expand = some (bs.map (dataOf e))) ∧
  (∀ bs : List Byte, (Line.compress bs).expand = some (.encStart :: (bs.map .encData ++ [.encEnd])) ∧
    (Line.decompress bs).expand = some (.decStart :: (bs.map .decData ++ [.decEnd]))) ∧
  (∀ (e : Engine) (bs : List Byte), (streamOf e bs).map encode = streamTokens bs)

/-! ### Steps, channels and schedule (20_memory.md, 70_reset_and_hazards.md) -/

/-- R12, R52, R60, R227: the engine whose turn it is takes the oldest token of its channel, and a token that decodes to
an instruction runs exactly that instruction on the machine without the token. With an empty schedule an engine that has
a token moves, the encode engine first (the model's choice, log entry 2). -/
def Obligations.StepRunsDecodedToken : Prop :=
  ∀ (s : State) (e : Engine) (t : Token) (ts : List Token), s.channel e = t :: ts →
    (∀ rest, s.sched = e :: rest → step s = takeToken e t (State.setChannel e ts { s with sched := rest })) ∧
    (s.sched = [] → (e = .dec → s.encIn = []) → step s = takeToken e t (s.setChannel e ts)) ∧
    (∀ i s', decode e t = .ok i → takeToken e t s' = exec i s')

/-- R212: an engine with no token to take waits and keeps all its state. How the model says it is the model's choice (DESIGN
CHOICE, log entry 2), not the rule's: that such an engine's turn is a step, which uses up the turn and changes nothing
else, and that with nothing offered and nothing scheduled a step leaves the machine as it is. -/
def Obligations.IdleTurnKeepsState : Prop :=
  (∀ (s : State) (e : Engine) (rest : List Engine), s.sched = e :: rest → s.channel e = [] →
    step s = .next { s with sched := rest }) ∧
  (∀ s : State, s.sched = [] → s.encIn = [] → s.decIn = [] → step s = .next s)

/-- The opcode table's words (R71, log entries 3 and 4): a word that decodes is what the very next step runs once it is
placed, on the machine as it was. -/
def Obligations.PlacedWordIsNext : Prop :=
  ∀ (s : State) (n w : Nat) (i : Instr), decodeTableWord n w = some i → step (s.withFetchWord n w) = exec i s

/-- R60, R61: whatever the schedule (R227), a machine whose invariants hold ends as each engine's own tokens, taken in
order, make it. That every offered token is taken, and within one step per scheduled turn and offered token, is the
model's choice and no rule's (DESIGN CHOICE, log entry 2): when the schedule has run out, an engine with a token moves,
where R227 only assumes that it eventually takes it. Of the hardware no such bound is claimed (log entry 18). -/
def Obligations.ScheduleDoesNotMatter : Prop :=
  ∀ s : State, s.Inv → ∃ u t : State,
    takeTokens .enc s.encIn { s with encIn := [], decIn := [], sched := [] } = .next u ∧
    takeTokens .dec s.decIn u = .next t ∧
    Host.Core.run Sys2Proof.core (s.sched.length + s.encIn.length + s.decIn.length) s = .next t

/-! ### Dispatch and errors (42_encoder.md, 43_decoder.md, 60_exceptions.md) -/

/-- R140: the encode engine's dispatch, test by test. -/
def Obligations.EncDispatchOrder : Prop :=
  ∀ (t : Token) (s : State), takeToken .enc t s =
    if s.enc.state = .error then (if t = 0x200#10 then exec .encStart s else .next s)
    else if t.extractLsb' 8 2 ≠ 0b00#2 ∧ t.extractLsb' 0 8 ≠ 0x00#8 then .next (s.raiseFault .enc .badToken)
    else if t.extractLsb' 8 2 = 0b10#2 then exec .encStart s
    else if t.extractLsb' 8 2 = 0b11#2 then .next (s.raiseFault .enc .abort)
    else if s.enc.state = .done then .next (s.raiseFault .enc .seq)
    else if t.extractLsb' 8 2 = 0b00#2 then s.commitEnc (s.enc.data .insertThenReseed (t.extractLsb' 0 8))
    else s.commitEnc (.ok s.enc.finish)

/-- R160: the decode engine's dispatch, test by test. -/
def Obligations.DecDispatchOrder : Prop :=
  ∀ (t : Token) (s : State), takeToken .dec t s =
    if s.dec.state = .error then (if t = 0x200#10 then exec .decStart s else .next s)
    else if t.extractLsb' 8 2 ≠ 0b00#2 ∧ t.extractLsb' 0 8 ≠ 0x00#8 then .next (s.raiseFault .dec .badToken)
    else if t.extractLsb' 8 2 = 0b10#2 then exec .decStart s
    else if t.extractLsb' 8 2 = 0b11#2 then .next (s.raiseFault .dec .abort)
    else if s.dec.state = .done then .next (s.raiseFault .dec .seq)
    else if t.extractLsb' 8 2 = 0b00#2 then s.commitDec (s.dec.data .insertThenReseed .literal (t.extractLsb' 0 8))
    else s.commitDec (.ok s.dec.finish)

/-- R204: in ERROR an engine takes every token; a well-formed START runs, and every other token, reserved ones included,
changes nothing and puts out nothing. -/
def Obligations.ErrorStateIgnoresTokens : Prop :=
  ∀ (e : Engine) (t : Token) (s : State), s.streamState e = .error →
    (t = 0x200#10 → takeToken e t s = exec (startOf e) s ∧
      ∃ s', exec (startOf e) s = .next s' ∧ s'.streamState e = .empty ∧ s'.cause e = .none) ∧
    (t ≠ 0x200#10 → takeToken e t s = .next s)

/-- R202, R203: an engine that enters ERROR enters it in the step of its own token, and that step changes nothing else
than STATE and ERR of that engine: every other element is as it was before the token, and so is everything put out. -/
def Obligations.ErrorsArePrecise : Prop :=
  ∀ (e e' : Engine) (t : Token) (s s' : State), takeToken e t s = .next s' →
    s.streamState e' ≠ .error → s'.streamState e' = .error →
    e' = e ∧ ∃ c : Cause, c ≠ .none ∧
      (e = .enc → s' = { s with enc := { s.enc with err := c, state := .error } }) ∧
      (e = .dec → s' = { s with dec := { s.dec with err := c, state := .error } })

/-- R201: which token raises which cause, and in which state, on an engine that is not in ERROR. -/
def Obligations.CauseTable : Prop :=
  ∀ (e : Engine) (t : Token) (s s' : State), s.Inv → s.streamState e ≠ .error → takeToken e t s = .next s' →
    (s'.cause e = .seq ↔ s.streamState e = .done ∧ (t.extractLsb' 8 2 = 0b00#2 ∨ t = 0x100#10)) ∧
    (s'.cause e = .badToken ↔ t.extractLsb' 8 2 ≠ 0b00#2 ∧ t.extractLsb' 0 8 ≠ 0x00#8) ∧
    (s'.cause e = .abort ↔ t = 0x300#10) ∧
    (s'.cause e = .badFirst ↔ e = .dec ∧ s.dec.state = .empty ∧ t.extractLsb' 8 2 = 0b00#2 ∧
      ∃ k, (s.dec.unpack (t.extractLsb' 0 8)).2 = some k ∧ 256 ≤ k.toNat) ∧
    (s'.cause e = .overlong ↔ e = .dec ∧ s.dec.state = .run ∧ t.extractLsb' 8 2 = 0b00#2 ∧
      (∃ k, (s.dec.unpack (t.extractLsb' 0 8)).2 = some k) ∧ 3841 < s.dec.prev.length + 1) ∧
    (s'.cause e = .none ↔ s'.streamState e ≠ .error)

/-- R206: among tokens, of either engine, only a well-formed START of its own takes an engine out of ERROR; it gives a
fresh stream with a fresh generation. So does hardware reset. -/
def Obligations.ErrorLeftByStartOrReset : Prop :=
  (∀ (e e' : Engine) (t : Token) (s s' : State), s.streamState e = .error → takeToken e' t s = .next s' →
    s'.streamState e ≠ .error → e' = e ∧ t = 0x200#10 ∧ s'.streamState e = .empty ∧
      (e = .enc → s'.enc.dict = { entries := [], next := 256#12, gen := 0#32 }) ∧
      (e = .dec → s'.dec.table = { entries := [], next := 256#12, gen := 0#32 })) ∧
  (∀ s : State, s.hostReset.enc = Encoder.reset ∧ s.hostReset.dec = Decoder.reset)

/-- R20, R207: an instruction of one engine leaves the other engine, both input channels and the schedule as they are, and
does the same whatever the other engine holds. -/
def Obligations.EnginesAreIndependent : Prop :=
  (∀ (i : Instr) (s t : State), i.engine = .enc → exec i s = .next t →
    t.dec = s.dec ∧ t.encIn = s.encIn ∧ t.decIn = s.decIn ∧ t.sched = s.sched ∧
    ∀ d : Decoder, exec i { s with dec := d } = .next { t with dec := d }) ∧
  (∀ (i : Instr) (s t : State), i.engine = .dec → exec i s = .next t →
    t.enc = s.enc ∧ t.encIn = s.encIn ∧ t.decIn = s.decIn ∧ t.sched = s.sched ∧
    ∀ e : Encoder, exec i { s with enc := e } = .next { t with enc := e })

/-- R61: nothing is ordered between the engines: a token of one and a token of the other have the same effect in either
order. -/
def Obligations.EnginesCommute : Prop :=
  ∀ (t u : Token) (s a b : State), takeToken .enc t s = .next a → takeToken .dec u s = .next b →
    ∃ z, takeToken .dec u a = .next z ∧ takeToken .enc t b = .next z

/-! ### The encode engine (42_encoder.md) -/

/-- R141: START opens a fresh stream in every state; nothing is put out, and what is out stays. -/
def Obligations.EncStartOpensStream : Prop :=
  ∀ s : State, ∃ t : State, exec .encStart s = .next t ∧
    t = { s with enc := { state := .empty, err := .none, s := 0#12,
                          dict := { entries := [], next := 256#12, gen := 0#32 },
                          par := false, nib := 0#4, out := s.enc.out } } ∧
    t.status .enc = 0x01000000#32 ∧ t.genReg .enc = 0#32

/-- R142: DATA in EMPTY starts the match; in RUN it extends the match on a hit, and on a miss packs the match's code,
inserts s+c at NEXT (with the reseed at 4095) and restarts with c. No s+c is longer than MAX_SEQ_LEN, and after a reseed
the next DATA misses and packs a code below 256. -/
def Obligations.EncDataMatchesGreedily : Prop :=
  ∀ (c : Byte) (s : State), s.Inv →
    (s.enc.state = .empty →
      exec (.encData c) s = .next { s with enc := { s.enc with s := c.setWidth 12, state := .run } }) ∧
    (s.enc.state = .run → ∃ u : Seq, s.enc.dict.seq s.enc.s = some u ∧
      (u ++ [c]).length ≤ 3841 ∧
      (s.enc.dict.next = 256#12 → s.enc.s.toNat < 256 ∧ ∀ k, s.enc.dict.seq k ≠ some (u ++ [c])) ∧
      (∀ k : Code, s.enc.dict.seq k = some (u ++ [c]) →
        exec (.encData c) s = .next { s with enc := { s.enc with s := k } }) ∧
      ((∀ k : Code, s.enc.dict.seq k ≠ some (u ++ [c])) →
        exec (.encData c) s = .next { s with enc :=
          { s.enc with
            s := c.setWidth 12
            dict := if s.enc.dict.next = 4095#12
              then { entries := [], next := 256#12, gen := s.enc.dict.gen + 1#32 }
              else { entries := Memory.set s.enc.dict.next.toNat (u ++ [c]) s.enc.dict.entries,
                     next := s.enc.dict.next + 1#12, gen := s.enc.dict.gen }
            par := !s.enc.par
            nib := if s.enc.par then s.enc.nib else s.enc.s.extractLsb' 0 4
            out := s.enc.out ++ (if s.enc.par
              then [.byte (s.enc.nib ++ s.enc.s.extractLsb' 8 4), .byte (s.enc.s.extractLsb' 0 8)]
              else [.byte (s.enc.s.extractLsb' 4 8)]) } }))

/-- R143's pseudocode: END from EMPTY puts out Eos alone; from RUN it packs the match, flushes, and puts out Eos; it
inserts nothing and never reseeds. (The rule's remark that 3 bytes go out when PAR was 1 is not what its pseudocode and
the vectors give: log entry 16.) -/
def Obligations.EncEndFlushes : Prop :=
  ∀ s : State,
    (s.enc.state = .empty → s.enc.par = false →
      exec .encEnd s = .next { s with enc := { s.enc with state := .done, out := s.enc.out ++ [.eos] } }) ∧
    (s.enc.state = .run → s.enc.par = true →
      exec .encEnd s = .next { s with enc := { s.enc with
        state := .done, par := false,
        out := s.enc.out ++ [.byte (s.enc.nib ++ s.enc.s.extractLsb' 8 4), .byte (s.enc.s.extractLsb' 0 8),
                             .eos] } }) ∧
    (s.enc.state = .run → s.enc.par = false →
      exec .encEnd s = .next { s with enc := { s.enc with
        state := .done, nib := s.enc.s.extractLsb' 0 4,
        out := s.enc.out ++ [.byte (s.enc.s.extractLsb' 4 8), .byte (s.enc.s.extractLsb' 0 4 ++ 0#4), .eos] } })

/-- R144: ABORT enters ERROR from EMPTY, RUN and DONE and changes nothing else; in ERROR it is ignored. -/
def Obligations.EncAbortEntersError : Prop :=
  ∀ s : State,
    (s.enc.state ≠ .error →
      exec .encAbort s = .next { s with enc := { s.enc with err := .abort, state := .error } }) ∧
    (s.enc.state = .error → exec .encAbort s = .next s)

/-- What each instruction of the encode engine leaves unchanged. ENC.DATA stores at the code NEXT alone, unless NEXT is
4095 and it reseeds; END, ABORT and an error entry store nothing; START keeps only what is out. -/
def Obligations.EncodeEngineFrame : Prop :=
  ∀ (i : Instr) (s t : State), i.engine = .enc → exec i s = .next t →
    t.dec = s.dec ∧ t.encIn = s.encIn ∧ t.decIn = s.decIn ∧ t.sched = s.sched ∧
    (∀ c, i = .encData c →
      (t.enc.err = s.enc.err ∨ t.enc.state = .error) ∧
      (s.enc.dict.next ≠ 4095#12 → t.enc.dict.gen = s.enc.dict.gen ∧
        ∀ k : Code, k ≠ s.enc.dict.next → t.enc.dict.seq k = s.enc.dict.seq k) ∧
      (s.enc.state ≠ .run → t.enc.dict = s.enc.dict ∧ t.enc.par = s.enc.par ∧ t.enc.nib = s.enc.nib ∧
        t.enc.out = s.enc.out) ∧
      (t.enc.out = s.enc.out → t.enc.dict = s.enc.dict ∧ t.enc.par = s.enc.par ∧ t.enc.nib = s.enc.nib)) ∧
    (i = .encEnd →
      (t.enc.err = s.enc.err ∨ t.enc.state = .error) ∧ t.enc.dict = s.enc.dict ∧ t.enc.s = s.enc.s ∧
      (s.enc.state ≠ .run ∨ s.enc.par = true → t.enc.nib = s.enc.nib)) ∧
    (i = .encAbort → t.enc = { s.enc with state := t.enc.state, err := t.enc.err }) ∧
    (i = .encStart → t.enc.out = s.enc.out)

/-- R106: a codeword the encode engine packs is present in its generation at that moment and lies in [0, 4094]. -/
def Obligations.PackedCodeIsPresent : Prop :=
  ∀ (t : Token) (s : State) (k : Code), s.Inv → s.packed t = some k →
    k.toNat ≤ 4094 ∧ k.toNat < s.enc.dict.next.toNat ∧ ∃ u, s.enc.dict.seq k = some u

/-- R145 item 3, the greedy property: when a miss packs the code of s, no entry of the active generation that is a prefix
of the input from the start of s on is longer than s. -/
def Obligations.PackedPrefixIsLongest : Prop :=
  ∀ (c : Byte) (s : State) (u : Seq), s.Inv → s.enc.state = .run → s.enc.dict.seq s.enc.s = some u →
    (∀ k, s.enc.dict.seq k ≠ some (u ++ [c])) →
    ∀ (rest v : Seq) (k : Code), s.enc.dict.seq k = some v → v <+: u ++ c :: rest → v.length ≤ u.length

/-- R77, R120, R145: a whole stream START, the bytes of B, END, from any state. What comes out is exactly the packed codewords
in the wire format, then Eos; the codewords' sequences joined are B; each codeword lies in [0, 4094]; their number is
that of the misses plus one for a non-empty B, and 0 for the empty one; and the bytes number L(n). -/
def Obligations.EncoderWritesWireFormat : Prop :=
  ∀ (s : State) (bs : List Byte), ∃ t : State, takeTokens .enc (streamTokens bs) s = .next t ∧
    t.enc.state = .done ∧
    t.enc.out = s.enc.out ++ (wirePack (codesOver (streamTokens bs) s)).map .byte ++ [.eos] ∧
    (wirePack (codesOver (streamTokens bs) s)).length =
      3 * ((codesOver (streamTokens bs) s).length / 2) + 2 * ((codesOver (streamTokens bs) s).length % 2) ∧
    (seqsOver (streamTokens bs) s).flatten = bs ∧
    (∀ k ∈ codesOver (streamTokens bs) s, k.toNat ≤ 4094) ∧
    (bs = [] → codesOver (streamTokens bs) s = []) ∧
    (bs ≠ [] → (codesOver (streamTokens bs) s).length = (codesOver (openTokens bs) s).length + 1)

/-- R43 item 5, R108: after START and the bytes of B, with m codewords packed so far, NEXT is 256 + m mod 3840 and GEN is
m / 3840 (modulo 2^32), and 3*floor(m/2) + (m mod 2) bytes have gone out. -/
def Obligations.EncoderCountsAndReseeds : Prop :=
  ∀ (s : State) (bs : List Byte), ∃ t : State, takeTokens .enc (openTokens bs) s = .next t ∧
    t.enc.dict.next.toNat = 256 + (codesOver (openTokens bs) s).length % 3840 ∧
    t.enc.dict.gen = BitVec.ofNat 32 ((codesOver (openTokens bs) s).length / 3840) ∧
    t.enc.out.length = s.enc.out.length + 3 * ((codesOver (openTokens bs) s).length / 2) +
      (codesOver (openTokens bs) s).length % 2

/-- R146: what the encode engine puts out, and its state, after START and any tokens are a function of those tokens alone:
the same from every state, after what was out before; and the same from reset without a START. -/
def Obligations.EncoderIsDeterminedByTokens : Prop :=
  ∀ ts : List Token, ∃ e : Encoder,
    (∀ s : State, takeTokens .enc (0x200#10 :: ts) s = .next { s with enc := { e with out := s.enc.out ++ e.out } }) ∧
    takeTokens .enc ts State.reset = .next { State.reset with enc := e }

/-! ### The decode engine (43_decoder.md) -/

/-- R161: START opens a fresh stream in every state; nothing is put out, and what is out stays. -/
def Obligations.DecStartOpensStream : Prop :=
  ∀ s : State, ∃ t : State, exec .decStart s = .next t ∧
    t = { s with dec := { state := .empty, err := .none, table := { entries := [], next := 256#12, gen := 0#32 },
                          prev := [], phase := .byte0, h0 := 0#8, nib := 0#4, out := s.dec.out } } ∧
    t.status .dec = 0x01000000#32 ∧ t.genReg .dec = 0#32

/-- R162 at PHASE 0: the byte is held, nothing is put out, and no error is possible. -/
def Obligations.DecDataHoldsFirstByte : Prop :=
  ∀ (b : Byte) (s : State), s.dec.state = .empty ∨ s.dec.state = .run → s.dec.phase = .byte0 →
    exec (.decData b) s = .next { s with dec := { s.dec with h0 := b, phase := .byte1 } }

/-- R165, R168: DATA that completes a codeword k runs the codeword step: in EMPTY the first codeword, which must be a
base code; in RUN the not-yet-assigned branch from NEXT up and the table's entry below it, with OVERLONG when the
sequence to insert is too long, and the insertion at NEXT with the reseed at 4095. An error undoes the unpacking. -/
def Obligations.DecDataDecodesCodeword : Prop :=
  ∀ (b : Byte) (s : State) (d : Decoder) (k : Code), s.Inv → s.dec.unpack b = (d, some k) →
    (s.dec.state = .empty →
      (256 ≤ k.toNat → exec (.decData b) s = .next (s.raiseFault .dec .badFirst)) ∧
      (k.toNat < 256 → exec (.decData b) s = .next { s with dec :=
        { d with out := s.dec.out ++ [.byte (k.extractLsb' 0 8)], prev := [k.extractLsb' 0 8], state := .run } })) ∧
    (s.dec.state = .run → ∃ e w : Seq,
      (s.dec.table.next.toNat ≤ k.toNat → (∃ x rest, s.dec.prev = x :: rest ∧ w = s.dec.prev ++ [x]) ∧ e = w) ∧
      (k.toNat < s.dec.table.next.toNat →
        s.dec.table.seq k = some e ∧ ∃ x rest, e = x :: rest ∧ w = s.dec.prev ++ [x]) ∧
      (3841 < w.length → exec (.decData b) s = .next (s.raiseFault .dec .overlong)) ∧
      (w.length ≤ 3841 → exec (.decData b) s = .next { s with dec :=
        { d with
          out := s.dec.out ++ e.map .byte
          prev := e
          table := if s.dec.table.next = 4095#12
            then { entries := [], next := 256#12, gen := s.dec.table.gen + 1#32 }
            else { entries := Memory.set s.dec.table.next.toNat w s.dec.table.entries,
                   next := s.dec.table.next + 1#12, gen := s.dec.table.gen } } }))

/-- R167: a codeword above NEXT raises no error by itself: it puts out PREV and its first byte and inserts that at NEXT,
not at k. -/
def Obligations.CodeAboveNextIsDecoded : Prop :=
  ∀ (b : Byte) (s : State) (d : Decoder) (k : Code) (x : Byte) (rest : Seq), s.Inv → s.dec.unpack b = (d, some k) →
    s.dec.state = .run → s.dec.table.next.toNat < k.toNat → s.dec.prev = x :: rest → s.dec.prev.length < 3841 →
    ∃ t : State, exec (.decData b) s = .next t ∧ t.dec.err = .none ∧ t.dec.state = .run ∧
      t.dec.out = s.dec.out ++ (s.dec.prev ++ [x]).map .byte ∧ t.dec.prev = s.dec.prev ++ [x] ∧
      t.dec.table.seq s.dec.table.next = some (s.dec.prev ++ [x]) ∧ t.dec.table.seq k = none

/-- R163: END puts out Eos alone and enters DONE, in every phase; PHASE keeps its value. -/
def Obligations.DecEndPutsOutEos : Prop :=
  ∀ s : State, s.dec.state = .empty ∨ s.dec.state = .run →
    exec .decEnd s = .next { s with dec := { s.dec with state := .done, out := s.dec.out ++ [.eos] } }

/-- R164: ABORT enters ERROR from EMPTY, RUN and DONE and changes nothing else; in ERROR it is ignored. -/
def Obligations.DecAbortEntersError : Prop :=
  ∀ s : State,
    (s.dec.state ≠ .error →
      exec .decAbort s = .next { s with dec := { s.dec with err := .abort, state := .error } }) ∧
    (s.dec.state = .error → exec .decAbort s = .next s)

/-- What each instruction of the decode engine leaves unchanged. DEC.DATA stores at the code NEXT alone, unless NEXT is
4095 and it reseeds, and only in RUN and outside PHASE 0; END, ABORT and an error entry store nothing; START keeps only
what is out. -/
def Obligations.DecodeEngineFrame : Prop :=
  ∀ (i : Instr) (s t : State), i.engine = .dec → exec i s = .next t →
    t.enc = s.enc ∧ t.encIn = s.encIn ∧ t.decIn = s.decIn ∧ t.sched = s.sched ∧
    (∀ b, i = .decData b →
      (t.dec.err = s.dec.err ∨ t.dec.state = .error) ∧
      (s.dec.table.next ≠ 4095#12 → t.dec.table.gen = s.dec.table.gen ∧
        ∀ k : Code, k ≠ s.dec.table.next → t.dec.table.seq k = s.dec.table.seq k) ∧
      (s.dec.state ≠ .run ∨ s.dec.phase = .byte0 → t.dec.table = s.dec.table) ∧
      (s.dec.phase = .byte0 → t.dec.prev = s.dec.prev ∧ t.dec.nib = s.dec.nib ∧ t.dec.out = s.dec.out) ∧
      (s.dec.phase ≠ .byte0 → t.dec.h0 = s.dec.h0) ∧
      (s.dec.phase = .byte2 → t.dec.nib = s.dec.nib)) ∧
    (i = .decEnd → t.dec = { s.dec with state := t.dec.state, err := t.dec.err, out := t.dec.out } ∧
      (t.dec.err = s.dec.err ∨ t.dec.state = .error)) ∧
    (i = .decAbort → t.dec = { s.dec with state := t.dec.state, err := t.dec.err }) ∧
    (i = .decStart → t.dec.out = s.dec.out)

/-- R108: after START and wire bytes P that raise no error, with n codewords complete, NEXT is 256 + (n-1) mod 3840 and GEN
is (n-1) / 3840 (modulo 2^32): one insertion per codeword after the first. -/
def Obligations.DecoderCountsAndReseeds : Prop :=
  ∀ (s t : State) (ps : List Byte), takeTokens .dec (openTokens ps) s = .next t → t.dec.state ≠ .error →
    t.dec.table.next.toNat = 256 + ((wireUnpack ps).length - 1) % 3840 ∧
    t.dec.table.gen = BitVec.ofNat 32 (((wireUnpack ps).length - 1) / 3840)

/-- R170: what the decode engine puts out, and its state, after START and any tokens are a function of those tokens alone;
and the same from reset without a START. -/
def Obligations.DecoderIsDeterminedByTokens : Prop :=
  ∀ ts : List Token, ∃ d : Decoder,
    (∀ s : State, takeTokens .dec (0x200#10 :: ts) s = .next { s with dec := { d with out := s.dec.out ++ d.out } }) ∧
    takeTokens .dec ts State.reset = .next { State.reset with dec := d }

/-- R166 items 2, 3 and 5: when the decode engine has decoded the first j codewords of a stream the encode engine made, its
table, counter and reseed count are those of the encode engine as the j-th codeword was packed, before that step's
insertion; PREV is that codeword's sequence; and the sequences so far are out. -/
def Obligations.DecoderMirrorsEncoder : Prop :=
  ∀ (s : State) (bs : List Byte) (j : Nat) (k : Code) (g : Generation),
    (packedOver (streamTokens bs) s)[j]? = some (k, g) →
    ∃ (d : Decoder) (u : Seq), decodeOver ((codesOver (streamTokens bs) s).take (j + 1)) Decoder.reset = .ok d ∧
      g.seq k = some u ∧ d.table = g ∧ d.prev = u ∧
      d.out = ((seqsOver (streamTokens bs) s).take (j + 1)).flatten.map .byte

/-- R14: round trip. Whatever the two engines held before, the bytes the encode engine puts out for B, given to the decode
engine, come out as B again, each followed by Eos. -/
def Obligations.RoundTrip : Prop :=
  ∀ (s s2 : State) (bs : List Byte), ∃ (t : State) (ps : List Byte),
    takeTokens .enc (streamTokens bs) s = .next t ∧ t.enc.out = s.enc.out ++ ps.map .byte ++ [.eos] ∧
    ∃ t2 : State, takeTokens .dec (streamTokens ps) s2 = .next t2 ∧
      t2.dec.out = s2.dec.out ++ bs.map .byte ++ [.eos] ∧ t2.dec.state = .done

/-! ### Dictionary and CodeTable (40_dictionary.md) -/

/-- R100: after Seed exactly the 256 one-byte sequences are present, each at its own byte; NEXT is 256; GEN is not
written. -/
def Obligations.SeedLeavesBaseEntries : Prop :=
  ∀ g : Generation,
    (∀ k : Code, k.toNat < 256 → g.seed.seq k = some [k.extractLsb' 0 8]) ∧
    (∀ k : Code, 256 ≤ k.toNat → g.seed.seq k = none) ∧
    g.seed.next = 256#12 ∧ g.seed.gen = g.gen ∧
    (∀ b : Byte, g.seed.find .insertThenReseed [b] = some (b.setWidth 12)) ∧
    (∀ u : Seq, u.length ≠ 1 → g.seed.find .insertThenReseed u = none)

/-- R101: DictFind answers the one code below NEXT whose entry is u, and NONE when there is none. -/
def Obligations.DictFindIsLookup : Prop :=
  ∀ (g : Generation) (u : Seq), g.Domain → g.Shape →
    (∀ k : Code, g.find .insertThenReseed u = some k ↔ k.toNat < g.next.toNat ∧ g.seq k = some u) ∧
    (g.find .insertThenReseed u = none ↔ ∀ k : Code, k.toNat < g.next.toNat → g.seq k ≠ some u)

/-- R102, R104, R105: an insertion stores u at NEXT and counts up; the one at 4095 leaves a freshly seeded generation and
adds 1 to GEN in the same step. -/
def Obligations.InsertStoresAtNext : Prop :=
  ∀ (g : Generation) (u : Seq), g.Domain →
    (g.next.toNat < 4095 →
      (g.insert .insertThenReseed u).seq g.next = some u ∧
      (∀ k : Code, k ≠ g.next → (g.insert .insertThenReseed u).seq k = g.seq k) ∧
      (g.insert .insertThenReseed u).next.toNat = g.next.toNat + 1 ∧
      (g.insert .insertThenReseed u).gen = g.gen) ∧
    (g.next.toNat = 4095 →
      (∀ k : Code, (g.insert .insertThenReseed u).seq k =
        if k.toNat < 256 then some [k.extractLsb' 0 8] else none) ∧
      (g.insert .insertThenReseed u).next = 256#12 ∧
      (g.insert .insertThenReseed u).gen.toNat = (g.gen.toNat + 1) % 2 ^ 32)

/-- R103: TableRead gives the base code's own byte below 256, and every code below NEXT has an entry. -/
def Obligations.TableReadBelowNext : Prop :=
  ∀ (g : Generation) (k : Code), g.Domain → k.toNat < g.next.toNat →
    (∃ u, g.seq k = some u) ∧ (k.toNat < 256 → g.seq k = some [k.extractLsb' 0 8])

/-- R105: Advance is NEXT + 1 below the limit and a reseed at it; nothing else reseeds. -/
def Obligations.AdvanceReseedsAtLimit : Prop :=
  ∀ g : Generation,
    (g.next.toNat + 1 < 4096 →
      g.advance.next.toNat = g.next.toNat + 1 ∧ g.advance.gen = g.gen ∧ g.advance.entries = g.entries) ∧
    (g.next.toNat + 1 = 4096 →
      g.advance = { entries := [], next := 256#12, gen := BitVec.ofNat 32 (g.gen.toNat + 1) })

/-- R7, R107 item 3: in the encode engine's generation the entry of code 256+j has at most j+2 bytes, so at most 3841,
and at most 3840 for a code that can be packed. -/
def Obligations.EntryLengthBound : Prop :=
  ∀ (s : State) (k : Code) (u : Seq), s.Inv → 256 ≤ k.toNat → s.enc.dict.seq k = some u →
    2 ≤ u.length ∧ u.length ≤ (k.toNat - 256) + 2 ∧ u.length ≤ 3840

/-- R109: a token moves NEXT of its engine by 1 or to 256 or not at all, and GEN by 1 or to 0 or not at all; GEN moves up only
when NEXT goes from 4095 to 256. -/
def Obligations.CounterMovesByOne : Prop :=
  ∀ (e : Engine) (t : Token) (s s' : State) (g g' : Generation), s.Inv → takeToken e t s = .next s' →
    ((e = .enc ∧ g = s.enc.dict ∧ g' = s'.enc.dict) ∨ (e = .dec ∧ g = s.dec.table ∧ g' = s'.dec.table)) →
    g' = g ∨
    (g'.next.toNat = g.next.toNat + 1 ∧ g'.gen = g.gen) ∨
    (g.next = 4095#12 ∧ g'.next = 256#12 ∧ g'.gen = g.gen + 1#32 ∧ t.extractLsb' 8 2 = 0b00#2) ∨
    (t = 0x200#10 ∧ g'.next = 256#12 ∧ g'.gen = 0#32)

/-! ### Bitpacker and wire format (41_bitpacker.md, R54, R75 to R78) -/

/-- R121, R122, R123, R124: the pack half, operation by operation. -/
def Obligations.PackHalf : Prop :=
  ∀ (k : Code) (e : Encoder),
    e.packA k = { e with out := e.out ++ [.byte (k.extractLsb' 4 8)], nib := k.extractLsb' 0 4, par := true } ∧
    e.packB k = { e with out := e.out ++ [.byte (e.nib ++ k.extractLsb' 8 4), .byte (k.extractLsb' 0 8)],
                         par := false } ∧
    (e.par = false → e.pack k = e.packA k) ∧ (e.par = true → e.pack k = e.packB k) ∧
    (e.par = true → e.packFlush = { e with out := e.out ++ [.byte (e.nib ++ 0b0000#4)], par := false }) ∧
    (e.par = false → e.packFlush = e)

/-- R125, R126, R127, R128: the unpack half, phase by phase, and its end. -/
def Obligations.UnpackHalf : Prop :=
  ∀ (b : Byte) (d : Decoder),
    (d.phase = .byte0 → d.unpack b = ({ d with h0 := b, phase := .byte1 }, none)) ∧
    (d.phase = .byte1 → d.unpack b =
      ({ d with nib := b.extractLsb' 0 4, phase := .byte2 }, some (d.h0 ++ b.extractLsb' 4 4))) ∧
    (d.phase = .byte2 → d.unpack b = ({ d with phase := .byte0 }, some (d.nib ++ b))) ∧
    d.unpackEnd = (d, none)

/-- R130: A then B through the pack half from PAR 0 and the unpack half from PHASE 0 give A then B and end at parity 0 on
both sides; a lone A and the flush give A and end at PHASE 2. -/
def Obligations.PackThenUnpack : Prop :=
  ∀ (a b : Code) (e : Encoder) (d : Decoder), e.par = false → d.phase = .byte0 →
    (∃ x y z : Byte, ((e.pack a).pack b).out = e.out ++ [.byte x, .byte y, .byte z] ∧
      ((e.pack a).pack b).par = false ∧ unpackedOver [x, y, z] d = [a, b] ∧
      (((d.unpack x).1.unpack y).1.unpack z).1.phase = .byte0) ∧
    (∃ x y : Byte, (e.pack a).packFlush.out = e.out ++ [.byte x, .byte y] ∧
      (e.pack a).packFlush.par = false ∧ unpackedOver [x, y] d = [a] ∧
      ((d.unpack x).1.unpack y).1.unpackEnd.1.phase = .byte2)

/-- R54, R75, R76: the bytes of a group as numbers: byte0 is A / 16, byte1 is 16 * (A mod 16) + B / 256, byte2 is
B mod 256; and back. -/
def Obligations.WireGroupLayout : Prop :=
  ∀ (a b : Code), ∃ x y z : Byte, wirePack [a, b] = [x, y, z] ∧
    x.toNat = a.toNat / 16 ∧ y.toNat = 16 * (a.toNat % 16) + b.toNat / 256 ∧ z.toNat = b.toNat % 256 ∧
    wirePack [a] = [x, BitVec.ofNat 8 (16 * (a.toNat % 16))] ∧
    (codeA x y).toNat = x.toNat * 16 + y.toNat / 16 ∧ (codeB (byteLow4 y) z).toNat = (y.toNat % 16) * 256 + z.toNat

/-- R77, R78: the format loses nothing, the counts of bytes and codewords are the rules' formulas, and an unpack half that
starts at a group boundary completes exactly the codewords the wire format holds. -/
def Obligations.WireFormatRoundTrip : Prop :=
  (∀ ks : List Code, wireUnpack (wirePack ks) = ks ∧
    (wirePack ks).length = 3 * (ks.length / 2) + 2 * (ks.length % 2)) ∧
  (∀ bs : List Byte, (wireUnpack bs).length = 2 * (bs.length / 3) + (if bs.length % 3 = 2 then 1 else 0)) ∧
  (∀ (bs : List Byte) (d : Decoder), d.phase = .byte0 → unpackedOver bs d = wireUnpack bs)

/-- R53, R66: a token only appends to its own engine's output: bytes, and Eos only for END; at most 2 bytes for ENC.DATA, 3
for ENC.END, 3841 for DEC.DATA, none for any other token. -/
def Obligations.OutputOnlyGrows : Prop :=
  ∀ (e : Engine) (t : Token) (s s' : State), s.Inv → takeToken e t s = .next s' →
    ∃ (bs : List Byte) (tail : List OutItem),
      s'.output e = s.output e ++ (bs.map .byte ++ tail) ∧
      (∀ f, f ≠ e → s'.output f = s.output f) ∧
      (tail = [] ∨ (tail = [.eos] ∧ t = 0x100#10)) ∧
      (bs ≠ [] → t.extractLsb' 8 2 = 0b00#2 ∨ t = 0x100#10) ∧
      (e = .enc → t.extractLsb' 8 2 = 0b00#2 → bs.length ≤ 2) ∧
      (e = .enc → t = 0x100#10 → bs.length ≤ 3) ∧
      (e = .dec → t.extractLsb' 8 2 = 0b00#2 → bs.length ≤ 3841) ∧
      (e = .dec → t = 0x100#10 → bs = [])

/-! ### Invariants (R43, R44) -/

/-- R43, R44: the invariants hold after reset. -/
def Obligations.ResetMeetsInvariants : Prop := State.reset.Inv

/-- R43, R44, R107: the invariants hold after every step from a state in which they hold, and such a step always has a
next state: the model stops on no token, legal or reserved. -/
def Obligations.StepKeepsInvariants : Prop :=
  ∀ s : State, s.Inv → ∃ t : State, step s = .next t ∧ t.Inv

/-- R50, log entry 6: whatever the state, a step keeps both entry storages in canonical form. -/
def Obligations.StepKeepsCanonicalStorage : Prop :=
  ∀ s t : State, Memory.wf s.enc.dict.entries = true → Memory.wf s.dec.table.entries = true → step s = .next t →
    Memory.wf t.enc.dict.entries = true ∧ Memory.wf t.dec.table.entries = true

/-! ### Status, register port and reset (10_state.md, 20_memory.md, 70_reset_and_hazards.md) -/

/-- R39: every field of STATUS, on both engines. -/
def Obligations.StatusFields : Prop :=
  ∀ s : State,
    (s.status .enc).extractLsb' 0 2 = s.enc.state.bits ∧
    (s.status .enc).extractLsb' 2 3 = s.enc.err.bits ∧
    (s.status .enc).extractLsb' 5 2 = (if s.enc.par then 1#2 else 0#2) ∧
    (s.status .enc).extractLsb' 7 1 = (if s.enc.par then 1#1 else 0#1) ∧
    (s.status .enc).extractLsb' 8 8 = 0#8 ∧
    (s.status .enc).extractLsb' 16 12 = s.enc.dict.next ∧
    (s.status .enc).extractLsb' 28 4 = 0#4 ∧
    (s.status .dec).extractLsb' 0 2 = s.dec.state.bits ∧
    (s.status .dec).extractLsb' 2 3 = s.dec.err.bits ∧
    (s.status .dec).extractLsb' 5 2 = s.dec.phase.bits ∧
    (s.status .dec).extractLsb' 7 1 = (if s.dec.phase = .byte2 then 1#1 else 0#1) ∧
    (s.status .dec).extractLsb' 8 8 = 0#8 ∧
    (s.status .dec).extractLsb' 16 12 = s.dec.table.next ∧
    (s.status .dec).extractLsb' 28 4 = 0#4

/-- R22, R30, R36, R201, R39: the codes of STATE, ERR and PHASE, and STATUS after reset. -/
def Obligations.FieldEncodings : Prop :=
  StreamState.empty.bits = 0#2 ∧ StreamState.run.bits = 1#2 ∧ StreamState.done.bits = 2#2 ∧
  StreamState.error.bits = 3#2 ∧
  Cause.none.bits = 0#3 ∧ Cause.seq.bits = 1#3 ∧ Cause.badToken.bits = 2#3 ∧ Cause.abort.bits = 3#3 ∧
  Cause.badFirst.bits = 4#3 ∧ Cause.overlong.bits = 5#3 ∧
  GroupPhase.byte0.bits = 0#2 ∧ GroupPhase.byte1.bits = 1#2 ∧ GroupPhase.byte2.bits = 2#2 ∧
  State.reset.status .enc = 0x01000000#32 ∧ State.reset.status .dec = 0x01000000#32

/-- R56, R57: at legal bases, 32-bit reads at the two offsets of a block give that engine's STATUS and GEN, every other
read in a block gives 0, and every write is ignored. -/
def Obligations.RegisterPort : Prop :=
  ∀ (b : Bases) (s : State), basesWf b = true →
    busRead b b.enc 32 s = some (s.status .enc) ∧ busRead b (b.enc + 4) 32 s = some s.enc.dict.gen ∧
    busRead b b.dec 32 s = some (s.status .dec) ∧ busRead b (b.dec + 4) 32 s = some s.dec.table.gen ∧
    (∀ base offset width : Nat, base = b.enc ∨ base = b.dec → offset < 8 →
      ¬ (width = 32 ∧ (offset = 0 ∨ offset = 4)) → busRead b (base + offset) width s = some 0#32) ∧
    (∀ addr width value : Nat, busWrite b addr width value s = s)

/-- R208, R221: the level outputs, and their value after reset. (R208's remark that both are cleared only by START or reset
is not true of `done`, which an error entry from DONE clears: log entry 21.) -/
def Obligations.LevelOutputs : Prop :=
  (∀ (e : Engine) (s : State), (s.doneLevel e = true ↔ s.streamState e = .done) ∧
    (s.errorLevel e = true ↔ s.streamState e = .error)) ∧
  (∀ e : Engine, State.reset.doneLevel e = false ∧ State.reset.errorLevel e = false)

/-- R42: the reset value of every element; START writes the same values to its own engine. -/
def Obligations.ResetValues : Prop :=
  State.reset.enc.state = .empty ∧ State.reset.enc.err = .none ∧ State.reset.enc.s = 0#12 ∧
  State.reset.enc.dict.next = 256#12 ∧ State.reset.enc.dict.gen = 0#32 ∧ State.reset.enc.par = false ∧
  State.reset.enc.nib = 0#4 ∧ State.reset.enc.out = [] ∧
  State.reset.dec.state = .empty ∧ State.reset.dec.err = .none ∧ State.reset.dec.table.next = 256#12 ∧
  State.reset.dec.prev = [] ∧ State.reset.dec.table.gen = 0#32 ∧ State.reset.dec.phase = .byte0 ∧
  State.reset.dec.h0 = 0#8 ∧ State.reset.dec.nib = 0#4 ∧ State.reset.dec.out = [] ∧
  (∀ k : Code, State.reset.enc.dict.seq k = if k.toNat < 256 then some [k.extractLsb' 0 8] else none) ∧
  (∀ k : Code, State.reset.dec.table.seq k = if k.toNat < 256 then some [k.extractLsb' 0 8] else none) ∧
  (∀ s : State, exec .encStart s = .next { s with enc := { State.reset.enc with out := s.enc.out } } ∧
    exec .decStart s = .next { s with dec := { State.reset.dec with out := s.dec.out } })

/-- R220: hardware reset forgets everything, and leaves each engine exactly as after its own START, with nothing out and
no token waiting. -/
def Obligations.ResetIsStartOnBoth : Prop :=
  ∀ s : State, s.hostReset = State.reset ∧ State.reset.encIn = [] ∧ State.reset.decIn = [] ∧
    ∃ t t' : State, exec .encStart s = .next t ∧ exec .decStart t = .next t' ∧
      State.reset.enc = { t'.enc with out := [] } ∧ State.reset.dec = { t'.dec with out := [] }
end

