-- ==== Sys2Proof/Laws/Decode.lean ====
section
/-! SUPPORT. The fields of a token (R70), as numbers. -/

namespace Sys2Proof

/-- {op, payload} as a number. -/
theorem tokenOf_toNat (op : BitVec 2) (p : Byte) : (tokenOf op p).toNat = op.toNat * 256 + p.toNat := by
  have h : (op ++ p).toNat = op.toNat <<< 8 ||| p.toNat := BitVec.toNat_append op p
  rw [← Nat.shiftLeft_add_eq_or_of_lt p.isLt, Nat.shiftLeft_eq] at h
  exact h

theorem op_toNat (t : Token) : (t.extractLsb' 8 2).toNat = t.toNat / 256 := by
  have := t.isLt
  simp only [BitVec.extractLsb'_toNat, Nat.shiftRight_eq_div_pow]
  omega

theorem payloadOf_toNat (t : Token) : (payloadOf t).toNat = t.toNat % 256 := by
  simp [payloadOf, BitVec.extractLsb'_toNat]

theorem payloadOf_tokenOf (op : BitVec 2) (p : Byte) : payloadOf (tokenOf op p) = p := by
  apply BitVec.eq_of_toNat_eq
  rw [payloadOf_toNat, tokenOf_toNat]
  have := p.isLt
  omega

theorem op_tokenOf (op : BitVec 2) (p : Byte) : (tokenOf op p).extractLsb' 8 2 = op := by
  apply BitVec.eq_of_toNat_eq
  rw [op_toNat, tokenOf_toNat]
  have := p.isLt
  omega

/-- A token is its two fields. -/
theorem tokenOf_fields (t : Token) : tokenOf (t.extractLsb' 8 2) (payloadOf t) = t := by
  apply BitVec.eq_of_toNat_eq
  rw [tokenOf_toNat, op_toNat, payloadOf_toNat]
  omega

end Sys2Proof
end

