-- ==== Sys2Proof/Laws/State.lean ====
section
/-! SUPPORT. What each small update of the state leaves in each field, each true by unfolding once. -/

namespace Sys2Proof.Machine

/-! ### Channels -/

@[simp] theorem Encoder.emit_state (l : List OutItem) (e : Encoder) : (e.emit l).state = e.state := rfl
@[simp] theorem Encoder.emit_err (l : List OutItem) (e : Encoder) : (e.emit l).err = e.err := rfl
@[simp] theorem Encoder.emit_s (l : List OutItem) (e : Encoder) : (e.emit l).s = e.s := rfl
@[simp] theorem Encoder.emit_dict (l : List OutItem) (e : Encoder) : (e.emit l).dict = e.dict := rfl
@[simp] theorem Encoder.emit_par (l : List OutItem) (e : Encoder) : (e.emit l).par = e.par := rfl
@[simp] theorem Encoder.emit_nib (l : List OutItem) (e : Encoder) : (e.emit l).nib = e.nib := rfl
@[simp] theorem Encoder.emit_out (l : List OutItem) (e : Encoder) : (e.emit l).out = e.out ++ l := rfl

@[simp] theorem Decoder.emit_state (l : List OutItem) (d : Decoder) : (d.emit l).state = d.state := rfl
@[simp] theorem Decoder.emit_err (l : List OutItem) (d : Decoder) : (d.emit l).err = d.err := rfl
@[simp] theorem Decoder.emit_table (l : List OutItem) (d : Decoder) : (d.emit l).table = d.table := rfl
@[simp] theorem Decoder.emit_prev (l : List OutItem) (d : Decoder) : (d.emit l).prev = d.prev := rfl
@[simp] theorem Decoder.emit_phase (l : List OutItem) (d : Decoder) : (d.emit l).phase = d.phase := rfl
@[simp] theorem Decoder.emit_h0 (l : List OutItem) (d : Decoder) : (d.emit l).h0 = d.h0 := rfl
@[simp] theorem Decoder.emit_nib (l : List OutItem) (d : Decoder) : (d.emit l).nib = d.nib := rfl
@[simp] theorem Decoder.emit_out (l : List OutItem) (d : Decoder) : (d.emit l).out = d.out ++ l := rfl

@[simp] theorem State.channel_enc (s : State) : s.channel .enc = s.encIn := rfl
@[simp] theorem State.channel_dec (s : State) : s.channel .dec = s.decIn := rfl
@[simp] theorem State.output_enc (s : State) : s.output .enc = s.enc.out := rfl
@[simp] theorem State.output_dec (s : State) : s.output .dec = s.dec.out := rfl
@[simp] theorem State.setChannel_enc (ts : List Token) (s : State) : s.setChannel .enc ts = { s with encIn := ts } := rfl
@[simp] theorem State.setChannel_dec (ts : List Token) (s : State) : s.setChannel .dec ts = { s with decIn := ts } := rfl

/-! ### Errors -/

@[simp] theorem State.streamState_enc (s : State) : s.streamState .enc = s.enc.state := rfl
@[simp] theorem State.streamState_dec (s : State) : s.streamState .dec = s.dec.state := rfl
@[simp] theorem State.cause_enc (s : State) : s.cause .enc = s.enc.err := rfl
@[simp] theorem State.cause_dec (s : State) : s.cause .dec = s.dec.err := rfl

@[simp] theorem State.raiseFault_enc_enc (c : Cause) (s : State) :
    (s.raiseFault .enc c).enc = { s.enc with err := c, state := .error } := rfl
@[simp] theorem State.raiseFault_enc_dec (c : Cause) (s : State) : (s.raiseFault .enc c).dec = s.dec := rfl
@[simp] theorem State.raiseFault_dec_enc (c : Cause) (s : State) : (s.raiseFault .dec c).enc = s.enc := rfl
@[simp] theorem State.raiseFault_dec_dec (c : Cause) (s : State) :
    (s.raiseFault .dec c).dec = { s.dec with err := c, state := .error } := rfl
@[simp] theorem State.raiseFault_encIn (e : Engine) (c : Cause) (s : State) : (s.raiseFault e c).encIn = s.encIn := by
  cases e <;> rfl
@[simp] theorem State.raiseFault_decIn (e : Engine) (c : Cause) (s : State) : (s.raiseFault e c).decIn = s.decIn := by
  cases e <;> rfl
@[simp] theorem State.raiseFault_sched (e : Engine) (c : Cause) (s : State) : (s.raiseFault e c).sched = s.sched := by
  cases e <;> rfl
@[simp] theorem State.raiseFault_streamState (e : Engine) (c : Cause) (s : State) :
    (s.raiseFault e c).streamState e = .error := by cases e <;> rfl
@[simp] theorem State.raiseFault_cause (e : Engine) (c : Cause) (s : State) : (s.raiseFault e c).cause e = c := by
  cases e <;> rfl
@[simp] theorem State.raiseFault_output (e f : Engine) (c : Cause) (s : State) :
    (s.raiseFault e c).output f = s.output f := by cases e <;> cases f <;> rfl

/-! ### A generation -/

@[simp] theorem Generation.seed_entries (g : Generation) : g.seed.entries = [] := rfl
@[simp] theorem Generation.seed_next (g : Generation) : g.seed.next = 256#12 := rfl
@[simp] theorem Generation.seed_gen (g : Generation) : g.seed.gen = g.gen := rfl
@[simp] theorem Generation.reseed_entries (g : Generation) : g.reseed.entries = [] := rfl
@[simp] theorem Generation.reseed_next (g : Generation) : g.reseed.next = 256#12 := rfl
@[simp] theorem Generation.reseed_gen (g : Generation) : g.reseed.gen = g.gen + 1#32 := rfl
@[simp] theorem Generation.bound_default (g : Generation) : g.bound .insertThenReseed = g.next.toNat := rfl

/-! ### The engines' small operations -/

@[simp] theorem Encoder.pack_dict (k : Code) (e : Encoder) : (e.pack k).dict = e.dict := by
  unfold Encoder.pack; split <;> rfl
@[simp] theorem Encoder.pack_state (k : Code) (e : Encoder) : (e.pack k).state = e.state := by
  unfold Encoder.pack; split <;> rfl
@[simp] theorem Encoder.pack_err (k : Code) (e : Encoder) : (e.pack k).err = e.err := by
  unfold Encoder.pack; split <;> rfl
@[simp] theorem Encoder.pack_s (k : Code) (e : Encoder) : (e.pack k).s = e.s := by
  unfold Encoder.pack; split <;> rfl
@[simp] theorem Encoder.pack_par (k : Code) (e : Encoder) : (e.pack k).par = !e.par := by
  unfold Encoder.pack; split <;> simp_all [Encoder.packA, Encoder.packB]
@[simp] theorem Encoder.packFlush_dict (e : Encoder) : e.packFlush.dict = e.dict := by
  unfold Encoder.packFlush; split <;> rfl
@[simp] theorem Encoder.packFlush_err (e : Encoder) : e.packFlush.err = e.err := by
  unfold Encoder.packFlush; split <;> rfl
@[simp] theorem Encoder.packFlush_s (e : Encoder) : e.packFlush.s = e.s := by
  unfold Encoder.packFlush; split <;> rfl
@[simp] theorem Encoder.packFlush_nib (e : Encoder) : e.packFlush.nib = e.nib := by
  unfold Encoder.packFlush; split <;> rfl
@[simp] theorem Encoder.packFlush_par (e : Encoder) : e.packFlush.par = false := by
  unfold Encoder.packFlush; split <;> simp_all
@[simp] theorem Decoder.unpack_state (b : Byte) (d : Decoder) : (d.unpack b).1.state = d.state := by
  unfold Decoder.unpack; split <;> rfl
@[simp] theorem Decoder.unpack_err (b : Byte) (d : Decoder) : (d.unpack b).1.err = d.err := by
  unfold Decoder.unpack; split <;> rfl
@[simp] theorem Decoder.unpack_table (b : Byte) (d : Decoder) : (d.unpack b).1.table = d.table := by
  unfold Decoder.unpack; split <;> rfl
@[simp] theorem Decoder.unpack_prev (b : Byte) (d : Decoder) : (d.unpack b).1.prev = d.prev := by
  unfold Decoder.unpack; split <;> rfl
@[simp] theorem Decoder.unpack_out (b : Byte) (d : Decoder) : (d.unpack b).1.out = d.out := by
  unfold Decoder.unpack; split <;> rfl

end Sys2Proof.Machine
end

