-- ==== Sys2Proof/Laws/Memory.lean ====
section
/-! SUPPORT. The laws of the entry storage: a read after a write, what a search finds, and that every operation keeps the
canonical form. -/

namespace Sys2Proof.Machine

@[simp] theorem Memory.get_nil (k : Nat) : Memory.get k [] = none := rfl
@[simp] theorem Memory.find_nil (n : Nat) (u : Seq) : Memory.find n u [] = none := rfl
@[simp] theorem Memory.codes_nil : Memory.codes [] = [] := rfl
@[simp] theorem Memory.codes_cons (x : Nat × Seq) (m : Memory) : Memory.codes (x :: m) = x.1 :: Memory.codes m := rfl

theorem Memory.get_set_same (k : Nat) (u : Seq) (m : Memory) : Memory.get k (Memory.set k u m) = some u := by
  induction m with
  | nil => simp [Memory.set, Memory.get]
  | cons x rest ih =>
    obtain ⟨a, v⟩ := x
    unfold Memory.set
    split
    · simp [Memory.get]
    · split
      · simp [Memory.get]
      · simp [Memory.get, Ne.symm ‹¬ k = a›, ih]

theorem Memory.get_set_other (k j : Nat) (u : Seq) (m : Memory) (h : j ≠ k) :
    Memory.get j (Memory.set k u m) = Memory.get j m := by
  induction m with
  | nil => simp [Memory.set, Memory.get, Ne.symm h]
  | cons x rest ih =>
    obtain ⟨a, v⟩ := x
    unfold Memory.set
    split
    · simp [Memory.get, Ne.symm h]
    · split
      · subst a; simp [Memory.get, Ne.symm h]
      · simp [Memory.get, ih]

/-- The canonical form, said of the codes alone. -/
theorem Memory.wf_cons (a : Nat) (v : Seq) (m : Memory) :
    Memory.wf ((a, v) :: m) = true ↔
      nBase ≤ a ∧ a < codeLimit ∧ (∀ b ∈ Memory.codes m, a < b) ∧ Memory.wf m = true := by
  induction m generalizing a v with
  | nil => simp [Memory.wf, Memory.codes]
  | cons y rest ih =>
    obtain ⟨b, w⟩ := y
    have hb := ih b w
    simp only [Memory.wf, Bool.and_eq_true, decide_eq_true_eq, Memory.codes_cons, List.mem_cons, forall_eq_or_imp]
    constructor
    · rintro ⟨⟨h1, h2⟩, h3⟩
      obtain ⟨h4, h5, h6, h7⟩ := hb.1 h3
      exact ⟨h1, by omega, ⟨h2, fun c hc => lt_trans h2 (h6 c hc)⟩, h3⟩
    · rintro ⟨h1, h2, ⟨h3, h4⟩, h5⟩
      exact ⟨⟨h1, h3⟩, h5⟩

theorem Memory.codes_set_mem (k : Nat) (u : Seq) (m : Memory) (b : Nat) :
    b ∈ Memory.codes (Memory.set k u m) → b = k ∨ b ∈ Memory.codes m := by
  induction m with
  | nil => simp [Memory.set, Memory.codes]
  | cons x rest ih =>
    obtain ⟨a, v⟩ := x
    unfold Memory.set
    split
    · simp
    · split
      · simp only [Memory.codes_cons, List.mem_cons]; tauto
      · simp only [Memory.codes_cons, List.mem_cons]; tauto

/-- Writing at a dynamic code keeps the canonical form. -/
theorem Memory.wf_set (k : Nat) (u : Seq) (m : Memory) (h1 : nBase ≤ k) (h2 : k < codeLimit)
    (h : Memory.wf m = true) : Memory.wf (Memory.set k u m) = true := by
  induction m with
  | nil => simp [Memory.set, Memory.wf, h1, h2]
  | cons x rest ih =>
    obtain ⟨a, v⟩ := x
    obtain ⟨ha, hb, hc, hd⟩ := (Memory.wf_cons a v rest).1 h
    unfold Memory.set
    split
    · refine (Memory.wf_cons _ _ _).2 ⟨h1, h2, ?_, h⟩
      intro b hb'
      rcases List.mem_cons.1 hb' with rfl | hb'
      · assumption
      · exact lt_trans ‹k < a› (hc b hb')
    · split
      · subst a; exact (Memory.wf_cons _ _ _).2 ⟨h1, h2, hc, hd⟩
      · refine (Memory.wf_cons _ _ _).2 ⟨ha, hb, ?_, ih hd⟩
        intro b hb'
        rcases Memory.codes_set_mem k u rest b hb' with rfl | hb'
        · omega
        · exact hc b hb'

/-- Only a listed code has a stored sequence. -/
theorem Memory.get_mem (k : Nat) (u : Seq) (m : Memory) (h : Memory.get k m = some u) : k ∈ Memory.codes m := by
  induction m with
  | nil => simp at h
  | cons x rest ih =>
    obtain ⟨a, v⟩ := x
    unfold Memory.get at h
    split at h
    · simp_all
    · simp [ih h]

/-- Every listed code has a stored sequence. -/
theorem Memory.get_of_mem (k : Nat) (m : Memory) (h : k ∈ Memory.codes m) : ∃ u, Memory.get k m = some u := by
  induction m with
  | nil => simp at h
  | cons x rest ih =>
    obtain ⟨a, v⟩ := x
    by_cases hk : a = k
    · exact ⟨v, by simp [Memory.get, hk]⟩
    · rcases List.mem_cons.1 h with h | h
      · exact absurd h.symm hk
      · simpa [Memory.get, hk] using ih h

/-- Writing above every listed code appends. -/
theorem Memory.set_append (k : Nat) (u : Seq) (m : Memory) (h : ∀ b ∈ Memory.codes m, b < k) :
    Memory.set k u m = m ++ [(k, u)] := by
  induction m with
  | nil => rfl
  | cons x rest ih =>
    obtain ⟨a, v⟩ := x
    have ha : a < k := h a (by simp)
    have := ih (fun b hb => h b (by simp [hb]))
    simp [Memory.set, Nat.not_lt.2 ha.le, ha.ne', this]

/-- What a search answers is below the bound and has the sequence. -/
theorem Memory.find_some (n : Nat) (u : Seq) (m : Memory) (a : Nat) (hc : (Memory.codes m).Nodup)
    (h : Memory.find n u m = some a) : a < n ∧ Memory.get a m = some u := by
  induction m with
  | nil => simp at h
  | cons x rest ih =>
    obtain ⟨b, v⟩ := x
    simp only [Memory.codes_cons, List.nodup_cons] at hc
    unfold Memory.find at h
    split at h
    · simp_all [Memory.get]
    · obtain ⟨h1, h2⟩ := ih hc.2 h
      have : b ≠ a := fun hb => hc.1 (hb ▸ Memory.get_mem _ _ _ h2)
      exact ⟨h1, by simp [Memory.get, this, h2]⟩

/-- A search that finds nothing: no code below the bound has the sequence. -/
theorem Memory.find_none (n : Nat) (u : Seq) (m : Memory) (h : Memory.find n u m = none) (a : Nat) (ha : a < n) :
    Memory.get a m ≠ some u := by
  induction m with
  | nil => simp
  | cons x rest ih =>
    obtain ⟨b, v⟩ := x
    unfold Memory.find at h
    split at h
    · simp at h
    · rename_i hb
      unfold Memory.get
      split
      · rintro ⟨⟩; subst a; exact hb ⟨ha, rfl⟩
      · exact ih h

/-- The machine after reset holds its storages in canonical form. -/
theorem Memory.wf_reset :
    Memory.wf State.reset.enc.dict.entries = true ∧ Memory.wf State.reset.dec.table.entries = true := by decide

theorem Generation.seed_wf (g : Generation) : Memory.wf g.seed.entries = true := rfl

theorem Generation.store_wf (u : Seq) (g : Generation) (h : Memory.wf g.entries = true) :
    Memory.wf (g.store u).entries = true := by
  unfold Generation.store
  split
  · exact h
  · exact Memory.wf_set _ _ _ (by omega) (by have := g.next.isLt; simp only [codeLimit]; omega) h

theorem Generation.advance_wf (g : Generation) (h : Memory.wf g.entries = true) :
    Memory.wf g.advance.entries = true := by
  unfold Generation.advance
  dsimp only
  split
  · rfl
  · exact h

/-- Every insertion keeps the canonical form, under both reseed readings. -/
theorem Generation.insert_wf (r : ReseedReading) (u : Seq) (g : Generation) (h : Memory.wf g.entries = true) :
    Memory.wf (g.insert r u).entries = true := by
  cases r with
  | insertThenReseed => exact Generation.advance_wf _ (Generation.store_wf u g h)
  | reseedInstead =>
    unfold Generation.insert
    dsimp only
    split
    · rfl
    · exact Generation.store_wf u g h

end Sys2Proof.Machine
end

