-- ==== Sys2Proof/Laws/Dictionary.lean ====
section
/-! SUPPORT. The laws of a generation at the machine's own reseed reading (R100 to R105): which codes name a sequence,
what a search answers, and everything an insertion does. -/

namespace Sys2Proof.Machine

theorem codeLow8_toNat (k : Code) : (codeLow8 k).toNat = k.toNat % 256 := by
  simp [codeLow8, BitVec.extractLsb'_toNat]

theorem baseCode_toNat (c : Byte) : (baseCode c).toNat = c.toNat := by
  have := c.isLt
  simp only [baseCode, BitVec.toNat_setWidth]
  omega

theorem codeLow8_baseCode (c : Byte) : codeLow8 (baseCode c) = c := by
  apply BitVec.eq_of_toNat_eq
  rw [codeLow8_toNat, baseCode_toNat]
  have := c.isLt
  omega

/-- Entry b is `[b]` for every byte b, in every generation (R100). -/
theorem Generation.seq_baseCode (g : Generation) (c : Byte) : g.seq (baseCode c) = some [c] := by
  have := c.isLt
  unfold Generation.seq
  rw [if_pos (by rw [baseCode_toNat]; simp only [nBase]; omega), codeLow8_baseCode]

theorem Generation.seq_base (g : Generation) (k : Code) (h : k.toNat < nBase) : g.seq k = some [codeLow8 k] := by
  simp [Generation.seq, h]

theorem Generation.seq_dyn (g : Generation) (k : Code) (h : nBase ≤ k.toNat) :
    g.seq k = Memory.get k.toNat g.entries := by
  simp [Generation.seq, Nat.not_lt.2 h]

/-- A dynamic code is listed exactly when it is below NEXT. -/
theorem Generation.Domain.mem_codes {g : Generation} (h : g.Domain) (k : Nat) :
    k ∈ Memory.codes g.entries ↔ nBase ≤ k ∧ k < g.next.toNat := by
  have := h.1
  rw [h.2, List.mem_range'_1]
  omega

theorem Generation.Domain.nodup {g : Generation} (h : g.Domain) : (Memory.codes g.entries).Nodup := by
  rw [h.2]; exact List.nodup_range'

/-- The domain of a generation is exactly [0, NEXT): a code that names a sequence is below NEXT. -/
theorem Generation.Domain.lt_of_seq {g : Generation} (h : g.Domain) {k : Code} {u : Seq} (hk : g.seq k = some u) :
    k.toNat < g.next.toNat := by
  by_cases hb : k.toNat < nBase
  · exact lt_of_lt_of_le hb h.1
  · rw [g.seq_dyn k (by omega)] at hk
    exact ((Generation.Domain.mem_codes h _).1 (Memory.get_mem _ _ _ hk)).2

/-- The domain of a generation is exactly [0, NEXT): a code below NEXT names a sequence. -/
theorem Generation.Domain.seq_of_lt {g : Generation} (h : g.Domain) {k : Code} (hk : k.toNat < g.next.toNat) : ∃ u, g.seq k = some u := by
  by_cases hb : k.toNat < nBase
  · exact ⟨_, g.seq_base k hb⟩
  · rw [g.seq_dyn k (by omega)]
    exact Memory.get_of_mem _ _ ((Generation.Domain.mem_codes h _).2 ⟨by omega, hk⟩)

/-- A stored generation is in canonical form. -/
theorem Generation.Domain.wf {g : Generation} (h : g.Domain) : Memory.wf g.entries = true := by
  have key : ∀ (m : Memory) (a n : Nat), nBase ≤ a → a + n ≤ codeLimit → Memory.codes m = List.range' a n →
      Memory.wf m = true := by
    intro m
    induction m with
    | nil => intros; rfl
    | cons x rest ih =>
      obtain ⟨b, v⟩ := x
      intro a n ha hn hc
      cases n with
      | zero => simp at hc
      | succ n =>
        rw [List.range'_succ, Memory.codes_cons, List.cons.injEq] at hc
        obtain ⟨rfl, hc⟩ := hc
        refine (Memory.wf_cons _ _ _).2 ⟨ha, by simp at *; omega, ?_, ih (b + 1) n (by simp at *; omega) (by omega) hc⟩
        intro c hcm
        rw [hc, List.mem_range'_1] at hcm
        simp at *
        omega
  have := g.next.isLt
  exact key g.entries nBase _ le_rfl (by simp only [codeLimit, nBase] at *; omega) h.2

/-! ### DictFind -/

theorem Generation.find_cases (u : Seq) (g : Generation) :
    (∃ b, u = [b] ∧ b.toNat < g.next.toNat ∧ g.find .insertThenReseed u = some (baseCode b)) ∨
    ((∀ b, u = [b] → g.next.toNat ≤ b.toNat) ∧
      g.find .insertThenReseed u = (Memory.find g.next.toNat u g.entries).map (BitVec.ofNat 12)) := by
  unfold Generation.find
  split
  · rename_i b
    rw [bound_default]
    split
    · exact .inl ⟨b, rfl, ‹_›, rfl⟩
    · refine .inr ⟨?_, rfl⟩
      rintro b' ⟨⟩
      omega
  · rename_i hu
    exact .inr ⟨fun b hb => absurd hb (hu b), rfl⟩

/-- What DictFind answers is below NEXT and names the sequence (R101). -/
theorem Generation.find_some {g : Generation} (h : g.Domain) {u : Seq} {k : Code}
    (hk : g.find .insertThenReseed u = some k) : k.toNat < g.next.toNat ∧ g.seq k = some u := by
  rcases g.find_cases u with ⟨b, rfl, hb, hf⟩ | ⟨_, hf⟩
  · rw [hf] at hk
    obtain rfl := Option.some.inj hk
    exact ⟨by rw [baseCode_toNat]; exact hb, g.seq_baseCode b⟩
  · rw [hf, Option.map_eq_some_iff] at hk
    obtain ⟨a, ha, rfl⟩ := hk
    obtain ⟨h1, h2⟩ := Memory.find_some _ _ _ _ h.nodup ha
    have hlt := g.next.isLt
    have hn : (BitVec.ofNat 12 a).toNat = a := by simp only [BitVec.toNat_ofNat]; omega
    have hb := ((Generation.Domain.mem_codes h a).1 (Memory.get_mem _ _ _ h2)).1
    exact ⟨by omega, by rw [g.seq_dyn _ (by omega), hn, h2]⟩

/-- When DictFind answers NONE, no code below NEXT names the sequence (R101). -/
theorem Generation.find_none {g : Generation} (h : g.Domain) {u : Seq}
    (hk : g.find .insertThenReseed u = none) (k : Code) : g.seq k ≠ some u := by
  intro hs
  have hlt := Generation.Domain.lt_of_seq h hs
  rcases g.find_cases u with ⟨b, rfl, hb, hf⟩ | ⟨hu, hf⟩
  · rw [hf] at hk; exact absurd hk (by simp)
  · rw [hf, Option.map_eq_none_iff] at hk
    by_cases hb : k.toNat < nBase
    · rw [g.seq_base k hb, Option.some.injEq] at hs
      have := hu _ hs.symm
      rw [codeLow8_toNat] at this
      have : k.toNat % 256 = k.toNat := Nat.mod_eq_of_lt hb
      omega
    · rw [g.seq_dyn k (by omega)] at hs
      exact Memory.find_none _ _ _ hk _ hlt hs

/-! ### DictInsert and TableInsert -/

/-- Advance below the limit: NEXT + 1. -/
theorem Generation.advance_lt (g : Generation) (h : g.next.toNat < 4095) :
    g.advance = { g with next := g.next + 1#12 } := by
  have h1 : ¬ (g.next.setWidth 13 + 1#13 = 4096#13) := by
    intro he
    have := congrArg BitVec.toNat he
    simp only [BitVec.toNat_add, BitVec.toNat_setWidth, BitVec.toNat_ofNat] at this
    omega
  have h2 : (g.next.setWidth 13 + 1#13).setWidth 12 = g.next + 1#12 := by
    apply BitVec.eq_of_toNat_eq
    simp only [BitVec.toNat_add, BitVec.toNat_setWidth, BitVec.toNat_ofNat]
    omega
  simp [Generation.advance, h1, h2]

/-- Advance at the limit: the reseed, in the same step. -/
theorem Generation.advance_last (g : Generation) (h : g.next.toNat = 4095) : g.advance = g.reseed := by
  have h1 : g.next.setWidth 13 + 1#13 = 4096#13 := by
    apply BitVec.eq_of_toNat_eq
    simp only [BitVec.toNat_add, BitVec.toNat_setWidth, BitVec.toNat_ofNat]
    omega
  simp [Generation.advance, h1]

/-- An insertion below the limit appends the entry at NEXT (R102, R104). -/
theorem Generation.insert_lt {g : Generation} (h : g.Domain) (u : Seq) (hn : g.next.toNat < 4095) :
    g.insert .insertThenReseed u =
      { entries := g.entries ++ [(g.next.toNat, u)], next := g.next + 1#12, gen := g.gen } := by
  have hs : g.store u = { g with entries := g.entries ++ [(g.next.toNat, u)] } := by
    rw [Generation.store, if_neg (Nat.not_lt.2 h.1),
      Memory.set_append _ _ _ (fun b hb => ((Generation.Domain.mem_codes h b).1 hb).2)]
  rw [Generation.insert, hs]
  exact Generation.advance_lt _ hn

/-- The insertion at 4095 leaves a freshly seeded generation and counts it (R105). -/
theorem Generation.insert_last {g : Generation} (u : Seq) (hn : g.next.toNat = 4095) :
    g.insert .insertThenReseed u = { entries := [], next := 256#12, gen := g.gen + 1#32 } := by
  have hs : (g.store u).next = g.next ∧ (g.store u).gen = g.gen := by
    unfold Generation.store; split <;> exact ⟨rfl, rfl⟩
  rw [Generation.insert, Generation.advance_last _ (by rw [hs.1]; exact hn)]
  simp [Generation.reseed, Generation.seed, hs.2]

/-- Everything an insertion can do: one of two cases. -/
theorem Generation.insert_cases {g : Generation} (h : g.Domain) (u : Seq) :
    (g.next.toNat < 4095 ∧ g.insert .insertThenReseed u =
      { entries := g.entries ++ [(g.next.toNat, u)], next := g.next + 1#12, gen := g.gen }) ∨
    (g.next.toNat = 4095 ∧ g.insert .insertThenReseed u =
      { entries := [], next := 256#12, gen := g.gen + 1#32 }) := by
  have := g.next.isLt
  rcases Nat.lt_or_ge g.next.toNat 4095 with hn | hn
  · exact .inl ⟨hn, Generation.insert_lt h u hn⟩
  · exact .inr ⟨by omega, Generation.insert_last u (by omega)⟩

theorem Generation.domain_empty (gen : Word32) :
    Generation.Domain { entries := [], next := 256#12, gen := gen } := by
  constructor <;> simp [nBase, Memory.codes]

theorem Generation.insert_domain {g : Generation} (h : g.Domain) (u : Seq) :
    (g.insert .insertThenReseed u).Domain := by
  rcases Generation.insert_cases h u with ⟨hn, he⟩ | ⟨_, he⟩
  · rw [he]
    have hb := h.1
    have hx : (g.next + 1#12).toNat = g.next.toNat + 1 := by
      simp only [BitVec.toNat_add, BitVec.toNat_ofNat]; omega
    refine ⟨by simp only [hx]; omega, ?_⟩
    simp only [hx, Memory.codes, List.map_append, List.map_cons, List.map_nil]
    rw [show g.next.toNat + 1 - nBase = (g.next.toNat - nBase) + 1 by omega, List.range'_concat]
    have := h.2
    simp only [Memory.codes] at this
    rw [this]
    simp
    omega
  · rw [he]; exact Generation.domain_empty _

/-- What each code names after an insertion below the limit: the new entry at NEXT, every other code as before. -/
theorem Generation.seq_insert_lt {g : Generation} (h : g.Domain) (u : Seq) (hn : g.next.toNat < 4095) (k : Code) :
    (g.insert .insertThenReseed u).seq k = if k = g.next then some u else g.seq k := by
  have hs : (g.insert .insertThenReseed u).entries = Memory.set g.next.toNat u g.entries := by
    rw [Generation.insert_lt h u hn,
      Memory.set_append _ _ _ (fun b hb => ((Generation.Domain.mem_codes h b).1 hb).2)]
  by_cases hk : k.toNat < nBase
  · have : k ≠ g.next := by rintro rfl; exact absurd h.1 (by omega)
    rw [Generation.seq_base _ _ hk, if_neg this, Generation.seq_base _ _ hk]
  · rw [Generation.seq_dyn _ _ (by omega), Generation.seq_dyn _ _ (by omega), hs]
    split
    · subst k; exact Memory.get_set_same _ _ _
    · exact Memory.get_set_other _ _ _ _ (fun he => ‹¬ k = g.next› (BitVec.eq_of_toNat_eq he))

/-- What each code names in a seeded generation: the base codes and no others (R100). -/
theorem Generation.seq_empty (next : Code) (gen : Word32) (k : Code) :
    Generation.seq { entries := [], next := next, gen := gen } k =
      if k.toNat < nBase then some [codeLow8 k] else none := by
  simp [Generation.seq]

end Sys2Proof.Machine
end

