-- ==== Sys2Proof/Laws/Engine.lean ====
section
/-! SUPPORT. What each shared operation of the engines can do, said once: the gate, taking a token, the two halves of a
DATA token, and the invariants of a single generation. -/

namespace Sys2Proof.Machine

/-! ### The dispatch -/

/-- The gate of DATA and END: ignored in ERROR, SEQ in DONE, and the body otherwise. -/
theorem State.gate_cases (e : Engine) (s : State) (body : Host.Outcome State Fault Refusal) :
    (s.streamState e = .error ∧ s.gate e body = .next s) ∨
    (s.streamState e = .done ∧ s.gate e body = .next (s.raiseFault e .seq)) ∨
    ((s.streamState e = .empty ∨ s.streamState e = .run) ∧ s.gate e body = body) := by
  unfold State.gate
  split <;> simp_all

/-- ABORT: ignored in ERROR, an error entry otherwise. -/
theorem State.takeAbort_cases (e : Engine) (s : State) :
    (s.streamState e = .error ∧ s.takeAbort e = s) ∨
    (s.streamState e ≠ .error ∧ s.takeAbort e = s.raiseFault e .abort) := by
  unfold State.takeAbort
  split <;> simp_all

/-- A reserved token: ignored in ERROR, an error entry otherwise. -/
theorem State.takeReserved_cases (e : Engine) (s : State) :
    (s.streamState e = .error ∧ s.takeReserved e = s) ∨
    (s.streamState e ≠ .error ∧ s.takeReserved e = s.raiseFault e .badToken) := by
  unfold State.takeReserved
  split <;> simp_all

/-- A token is an instruction that runs, or a reserved encoding. -/
theorem takeToken_cases (e : Engine) (t : Token) (s : State) :
    (∃ i, decode e t = .ok i ∧ takeToken e t s = exec i s) ∨
    (∃ x, decode e t = .error x ∧ takeToken e t s = .next (s.takeReserved e)) := by
  unfold takeToken
  cases h : decode e t with
  | ok i => exact .inl ⟨i, rfl, rfl⟩
  | error x => exact .inr ⟨x, rfl, rfl⟩

/-- Everything an instruction of the encode engine can do to the machine: nothing, an error entry, or a new state of that
engine alone. -/
theorem exec_enc_cases (i : Instr) (s t : State) (hi : i.engine = .enc) (h : exec i s = .next t) :
    t = s ∨ (∃ c, t = s.raiseFault .enc c) ∨ ∃ e, t = { s with enc := e } := by
  cases i with
  | encData c =>
    rcases s.gate_cases .enc (s.commitEnc (s.enc.data reseedReading c)) with ⟨_, hg⟩ | ⟨_, hg⟩ | ⟨_, hg⟩
    · cases (hg.symm.trans h); exact .inl rfl
    · cases (hg.symm.trans h); exact .inr (.inl ⟨_, rfl⟩)
    · replace h := hg.symm.trans h
      cases hd : s.enc.data reseedReading c <;> rw [hd] at h <;> cases h
      · exact .inr (.inr ⟨_, rfl⟩)
      · exact .inr (.inl ⟨_, rfl⟩)
  | encEnd =>
    rcases s.gate_cases .enc (s.commitEnc (.ok s.enc.finish)) with ⟨_, hg⟩ | ⟨_, hg⟩ | ⟨_, hg⟩
    · cases (hg.symm.trans h); exact .inl rfl
    · cases (hg.symm.trans h); exact .inr (.inl ⟨_, rfl⟩)
    · cases (hg.symm.trans h); exact .inr (.inr ⟨_, rfl⟩)
  | encStart => cases h; exact .inr (.inr ⟨_, rfl⟩)
  | encAbort =>
    cases h
    rcases s.takeAbort_cases .enc with ⟨_, hg⟩ | ⟨_, hg⟩
    · exact .inl hg
    · exact .inr (.inl ⟨_, hg⟩)
  | decData b => cases hi
  | decEnd => cases hi
  | decStart => cases hi
  | decAbort => cases hi

/-- Everything an instruction of the decode engine can do to the machine. -/
theorem exec_dec_cases (i : Instr) (s t : State) (hi : i.engine = .dec) (h : exec i s = .next t) :
    t = s ∨ (∃ c, t = s.raiseFault .dec c) ∨ ∃ d, t = { s with dec := d } := by
  cases i with
  | decData b =>
    rcases s.gate_cases .dec (s.commitDec (s.dec.data reseedReading aboveNextPolicy b)) with ⟨_, hg⟩ | ⟨_, hg⟩ | ⟨_, hg⟩
    · cases (hg.symm.trans h); exact .inl rfl
    · cases (hg.symm.trans h); exact .inr (.inl ⟨_, rfl⟩)
    · replace h := hg.symm.trans h
      cases hd : s.dec.data reseedReading aboveNextPolicy b <;> rw [hd] at h <;> cases h
      · exact .inr (.inr ⟨_, rfl⟩)
      · exact .inr (.inl ⟨_, rfl⟩)
  | decEnd =>
    rcases s.gate_cases .dec (s.commitDec (.ok s.dec.finish)) with ⟨_, hg⟩ | ⟨_, hg⟩ | ⟨_, hg⟩
    · cases (hg.symm.trans h); exact .inl rfl
    · cases (hg.symm.trans h); exact .inr (.inl ⟨_, rfl⟩)
    · cases (hg.symm.trans h); exact .inr (.inr ⟨_, rfl⟩)
  | decStart => cases h; exact .inr (.inr ⟨_, rfl⟩)
  | decAbort =>
    cases h
    rcases s.takeAbort_cases .dec with ⟨_, hg⟩ | ⟨_, hg⟩
    · exact .inl hg
    · exact .inr (.inl ⟨_, hg⟩)
  | encData c => cases hi
  | encEnd => cases hi
  | encStart => cases hi
  | encAbort => cases hi

/-! ### The encode engine's DATA -/

theorem Encoder.data_empty (r : ReseedReading) (c : Byte) (e : Encoder) (h : e.state = .empty) :
    e.data r c = .ok { e with s := baseCode c, state := .run } := by
  simp [Encoder.data, h]

/-- DATA in RUN with a match the generation holds: a hit or a miss (R142). -/
theorem Encoder.data_run (c : Byte) (e : Encoder) (u : Seq) (h : e.state = .run) (hu : e.dict.seq e.s = some u) :
    (∃ k, e.dict.find .insertThenReseed (u ++ [c]) = some k ∧
      e.data .insertThenReseed c = .ok { e with s := k }) ∨
    (e.dict.find .insertThenReseed (u ++ [c]) = none ∧
      e.data .insertThenReseed c = .ok (e.miss .insertThenReseed (u ++ [c]) c)) := by
  unfold Encoder.data
  rw [h]
  dsimp only
  rw [hu]
  dsimp only
  cases hf : e.dict.find .insertThenReseed (u ++ [c]) with
  | some k => exact .inl ⟨k, rfl, rfl⟩
  | none => exact .inr ⟨rfl, rfl⟩

/-! ### The decode engine's DATA -/

/-- The three phases of Unpack (R125, R126, R127). -/
theorem Decoder.unpack_cases (b : Byte) (d : Decoder) :
    (d.phase = .byte0 ∧ d.unpack b = ({ d with h0 := b, phase := .byte1 }, none)) ∨
    (d.phase = .byte1 ∧ d.unpack b = ({ d with nib := byteLow4 b, phase := .byte2 }, some (codeA d.h0 b))) ∨
    (d.phase = .byte2 ∧ d.unpack b = ({ d with phase := .byte0 }, some (codeB d.nib b))) := by
  unfold Decoder.unpack
  split <;> simp_all

/-- What the end of a codeword step does: OVERLONG, or the insertion and the output (R165). -/
theorem Decoder.putSeq_cases (r : ReseedReading) (w e : Seq) (d : Decoder) :
    (maxSeqLen < w.length ∧ d.putSeq r w e = .raise .overlong) ∨
    (w.length ≤ maxSeqLen ∧
      d.putSeq r w e = .ok { d.emit (e.map .byte) with table := d.table.insert r w, prev := e }) := by
  unfold Decoder.putSeq
  split
  · exact .inl ⟨‹_›, rfl⟩
  · exact .inr ⟨by omega, rfl⟩

/-- A codeword step in RUN at the machine's own policy: the not-yet-assigned branch at NEXT and above, the table's entry
below it (R165, R167). -/
theorem Decoder.decodeCode_run (k : Code) (d : Decoder) (h : d.state = .run) :
    d.decodeCode .insertThenReseed .literal k =
      if k.toNat < d.table.next.toNat then d.codeInTable .insertThenReseed k else d.codeAtNext .insertThenReseed := by
  unfold Decoder.decodeCode
  rw [h]
  simp

/-- A codeword step in EMPTY: the first codeword (R168). -/
theorem Decoder.decodeCode_empty (r : ReseedReading) (p : AboveNextPolicy) (k : Code) (d : Decoder)
    (h : d.state = .empty) : d.decodeCode r p k = d.firstCode k := by
  unfold Decoder.decodeCode
  rw [h]

/-! ### The shape of a generation under insertion -/

/-- A seeded generation has the shape of R107: it has no dynamic entry, and its base entries differ. -/
theorem Generation.shape_empty (next : Code) (gen : Word32) :
    Generation.Shape { entries := [], next := next, gen := gen } := by
  constructor
  · intro k u hk hs
    rw [Generation.seq_empty, if_neg (by omega)] at hs
    cases hs
  · intro i j u hi hj
    rw [Generation.seq_empty] at hi hj
    split at hi <;> split at hj <;> try contradiction
    rename_i hin hjn
    rw [← hj] at hi
    have := congrArg BitVec.toNat (List.head_eq_of_cons_eq (Option.some.inj hi))
    rw [codeLow8_toNat, codeLow8_toNat] at this
    simp only [nBase] at hin hjn
    exact BitVec.eq_of_toNat_eq (by omega)

/-- Inserting an entry extended by one byte, where no entry is equal to it, keeps the shape of R107. -/
theorem Generation.insert_shape {g : Generation} (h : g.Domain) (hs : g.Shape) (j : Code) (p : Seq) (c : Byte)
    (hj : g.seq j = some p) (hn : ∀ k, g.seq k ≠ some (p ++ [c])) :
    (g.insert .insertThenReseed (p ++ [c])).Shape := by
  rcases Generation.insert_cases h (p ++ [c]) with ⟨hlt, _⟩ | ⟨hlt, he⟩
  · have hseq := Generation.seq_insert_lt h (p ++ [c]) hlt
    have hjn := Generation.Domain.lt_of_seq h hj
    refine ⟨?_, ?_⟩
    · intro k u hk hu
      rw [hseq] at hu
      split at hu
      · cases hu
        subst k
        refine ⟨j, p, c, hjn, ?_, rfl⟩
        rw [hseq, if_neg (by rintro rfl; omega), hj]
      · obtain ⟨i, q, x, hi, hq, rfl⟩ := hs.1 k u hk hu
        have := Generation.Domain.lt_of_seq h hu
        exact ⟨i, q, x, hi, by rw [hseq, if_neg (by rintro rfl; omega), hq], rfl⟩
    · intro a b u ha hb
      rw [hseq] at ha hb
      split at ha <;> split at hb
      · simp_all
      · cases ha; exact absurd hb (hn b)
      · cases hb; exact absurd ha (hn a)
      · exact hs.2 a b u ha hb
  · rw [he]; exact Generation.shape_empty _ _

theorem Generation.bounded_empty (next : Code) (gen : Word32) :
    Generation.Bounded { entries := [], next := next, gen := gen } := by
  intro k u hk hs
  rw [Generation.seq_empty, if_neg (by omega)] at hs
  cases hs

/-- Inserting a sequence of 2 to MAX_SEQ_LEN bytes keeps every dynamic entry within those lengths. -/
theorem Generation.insert_bounded {g : Generation} (h : g.Domain) (hb : g.Bounded) (u : Seq) (h1 : 2 ≤ u.length)
    (h2 : u.length ≤ maxSeqLen) : (g.insert .insertThenReseed u).Bounded := by
  rcases Generation.insert_cases h u with ⟨hlt, _⟩ | ⟨_, he⟩
  · intro k v hk hv
    rw [Generation.seq_insert_lt h u hlt] at hv
    split at hv
    · cases hv; exact ⟨h1, h2⟩
    · exact hb k v hk hv
  · rw [he]; exact Generation.bounded_empty _ _

/-! ### What an accepted DATA has done, and what a refused codeword means -/

theorem code_eq_limit_iff (c : Code) : c = 4095#12 ↔ c.toNat = 4095 :=
  ⟨by rintro rfl; rfl, fun h => BitVec.eq_of_toNat_eq h⟩

/-- An insertion, with the test on NEXT written out (R102, R104, R105). -/
theorem Generation.insert_eq {g : Generation} (h : g.Domain) (u : Seq) :
    g.insert .insertThenReseed u =
      if g.next = 4095#12 then { entries := [], next := 256#12, gen := g.gen + 1#32 }
      else { entries := Memory.set g.next.toNat u g.entries, next := g.next + 1#12, gen := g.gen } := by
  have := g.next.isLt
  split
  · rename_i hn; rw [code_eq_limit_iff] at hn; exact Generation.insert_last u hn
  · rename_i hn; rw [code_eq_limit_iff] at hn
    rw [Generation.insert_lt h u (by omega), Memory.set_append _ _ _ (fun b hb => ((Generation.Domain.mem_codes h b).1 hb).2)]

/-- Lengths in a generation of the shape of R107: a base entry has one byte, entry 256+j at least 2 and at most j+2. -/
theorem Generation.shape_length {g : Generation} (hs : g.Shape) :
    ∀ (n : Nat) (k : Code) (u : Seq), k.toNat ≤ n → g.seq k = some u →
      1 ≤ u.length ∧ (256 ≤ k.toNat → 2 ≤ u.length ∧ u.length + 254 ≤ k.toNat) ∧
        (k.toNat < 256 → u.length = 1) := by
  intro n
  induction n with
  | zero =>
    intro k u hk hu
    rw [Generation.seq_base _ _ (by simp only [nBase]; omega)] at hu; cases hu; simp; omega
  | succ n ih =>
    intro k u hk hu
    by_cases hb : k.toNat < 256
    · rw [Generation.seq_base _ _ hb] at hu; cases hu; simp; omega
    · obtain ⟨j, p, c, hj, hp, rfl⟩ := hs.1 k u (by simp only [nBase]; omega) hu
      obtain ⟨h1, h2, h3⟩ := ih j p (by omega) hp
      simp
      by_cases hjb : j.toNat < 256
      · have := h3 hjb; omega
      · have := h2 (by omega); omega

/-- What a codeword step that completes has done (R165): the unpack half is untouched; in EMPTY one byte is out and the
table is as it was; otherwise a sequence is inserted and another is out and held. -/
theorem Decoder.decodeCode_ok (d : Decoder) (k : Code) (d' : Decoder)
    (h : d.decodeCode .insertThenReseed .literal k = .ok d') :
    d'.phase = d.phase ∧ d'.h0 = d.h0 ∧ d'.nib = d.nib ∧
    ((d.state = .empty ∧ d'.table = d.table ∧ d'.out = d.out ++ [.byte (codeLow8 k)]) ∨
      (d.state ≠ .empty ∧ ∃ w e : Seq, w.length ≤ maxSeqLen ∧ d'.table = d.table.insert .insertThenReseed w ∧
        d'.out = d.out ++ e.map .byte ∧ d'.prev = e ∧ (e = w ∨ d.table.seq k = some e))) := by
  unfold Decoder.decodeCode at h
  split at h
  · rename_i hst
    unfold Decoder.firstCode at h; split at h <;> cases h
    exact ⟨rfl, rfl, rfl, .inl ⟨hst, rfl, rfl⟩⟩
  · rename_i hst
    have key : ∀ w e, (e = w ∨ d.table.seq k = some e) → d.putSeq .insertThenReseed w e = .ok d' → d'.phase = d.phase ∧ d'.h0 = d.h0 ∧ d'.nib = d.nib ∧
      ((d.state = .empty ∧ d'.table = d.table ∧ d'.out = d.out ++ [.byte (codeLow8 k)]) ∨
      (d.state ≠ .empty ∧ ∃ w e : Seq, w.length ≤ maxSeqLen ∧ d'.table = d.table.insert .insertThenReseed w ∧
        d'.out = d.out ++ e.map .byte ∧ d'.prev = e ∧ (e = w ∨ d.table.seq k = some e))) := by
      intro w e hw h
      rcases Decoder.putSeq_cases .insertThenReseed w e d with ⟨_, h2⟩ | ⟨hl, h2⟩ <;> rw [h2] at h <;> cases h
      exact ⟨rfl, rfl, rfl, .inr ⟨hst, w, e, hl, rfl, rfl, rfl, hw⟩⟩
    split at h
    · unfold Decoder.codeInTable at h
      split at h <;> try cases h
      rename_i hx
      exact key _ _ (.inr hx) h
    · split at h
      · cases h
      · unfold Decoder.codeAtNext at h
        split at h <;> try cases h
        exact key _ _ (.inl rfl) h

/-- The two errors of a codeword step, and when it raises them (R165, R201). -/
theorem Decoder.decodeCode_raise (d : Decoder) (k : Code) (c : Cause)
    (h : d.decodeCode .insertThenReseed .literal k = .raise c) :
    (c = .badFirst ∧ d.state = .empty ∧ 256 ≤ k.toNat) ∨
    (c = .overlong ∧ d.state ≠ .empty ∧ 3841 < d.prev.length + 1) := by
  unfold Decoder.decodeCode at h
  split at h
  · unfold Decoder.firstCode at h; split at h <;> cases h; rename_i h1 h2; exact .inl ⟨rfl, h1, h2⟩
  · rename_i hst
    have key : ∀ w e, w.length = d.prev.length + 1 → d.putSeq .insertThenReseed w e = .raise c → (c = .overlong ∧ 3841 < d.prev.length + 1) := by
      intro w e hw h
      rcases Decoder.putSeq_cases .insertThenReseed w e d with ⟨hl, h2⟩ | ⟨_, h2⟩ <;> rw [h2] at h <;> cases h
      exact ⟨rfl, by rw [hw] at hl; exact hl⟩
    refine .inr ?_
    have : c = .overlong ∧ 3841 < d.prev.length + 1 := by
      split at h
      · unfold Decoder.codeInTable at h
        split at h <;> try cases h
        exact key _ _ (by simp) h
      · split at h
        · cases h
        · unfold Decoder.codeAtNext at h
          split at h <;> try cases h
          exact key _ _ (by simp) h
    exact ⟨this.1, hst, this.2⟩

end Sys2Proof.Machine
end

