-- ==== Sys2Proof/Laws/Dispatch.lean ====
section
/-! SUPPORT. Which of the five kinds a token is (R73), and, once for each engine, everything that taking a token can do to
the machine (R140, R160). -/

namespace Sys2Proof.Machine

/-- DATA decodes to DATA, with its payload. -/
theorem decode_data (e : Engine) (c : Byte) : decode e (tokenOf 0#2 c) = .ok (dataOf e c) := by
  unfold decode opOf
  rw [op_tokenOf, payloadOf_tokenOf]
  rfl

theorem op_kinds (t : Token) :
    (opOf t = .data ∧ t.extractLsb' 8 2 = 0#2) ∨ (opOf t = .finish ∧ t.extractLsb' 8 2 = 1#2) ∨
    (opOf t = .start ∧ t.extractLsb' 8 2 = 2#2) ∨ (opOf t = .abort ∧ t.extractLsb' 8 2 = 3#2) := by
  unfold opOf
  generalize t.extractLsb' 8 2 = x
  revert x
  decide

theorem token_eq (t : Token) (op : BitVec 2) (p : Byte) (h1 : t.extractLsb' 8 2 = op) (h2 : payloadOf t = p) :
    t = tokenOf op p := by
  rw [← h1, ← h2, tokenOf_fields]

/-- Every token is a DATA token, one of the three control tokens, or a reserved one (R73). -/
theorem decode_kinds (t : Token) :
    (t.extractLsb' 8 2 = 0#2 ∧ t = tokenOf 0#2 (payloadOf t) ∧ ∀ e, decode e t = .ok (dataOf e (payloadOf t))) ∨
    (t = 0x100#10 ∧ ∀ e, decode e t = .ok (endOf e)) ∨
    (t = 0x200#10 ∧ ∀ e, decode e t = .ok (startOf e)) ∨
    (t = 0x300#10 ∧ ∀ e, decode e t = .ok (abortOf e)) ∨
    (t.extractLsb' 8 2 ≠ 0#2 ∧ payloadOf t ≠ 0#8 ∧ ∀ e, ∃ x, decode e t = .error x) := by
  by_cases hp : payloadOf t = 0#8
  · rcases op_kinds t with ⟨h1, h2⟩ | ⟨h1, h2⟩ | ⟨h1, h2⟩ | ⟨h1, h2⟩
    · exact .inl ⟨h2, token_eq t _ _ h2 rfl, fun e => by simp [decode, h1]⟩
    · exact .inr (.inl ⟨token_eq t _ _ h2 hp, fun e => by simp [decode, h1, hp]⟩)
    · exact .inr (.inr (.inl ⟨token_eq t _ _ h2 hp, fun e => by simp [decode, h1, hp]⟩))
    · exact .inr (.inr (.inr (.inl ⟨token_eq t _ _ h2 hp, fun e => by simp [decode, h1, hp]⟩)))
  · rcases op_kinds t with ⟨h1, h2⟩ | ⟨h1, h2⟩ | ⟨h1, h2⟩ | ⟨h1, h2⟩
    · exact .inl ⟨h2, token_eq t _ _ h2 rfl, fun e => by simp [decode, h1]⟩
    all_goals refine .inr (.inr (.inr (.inr ⟨by rw [h2]; decide, hp, fun e => ?_⟩)))
    all_goals (unfold decode; rw [h1]; dsimp only; exact ⟨_, if_neg hp⟩)

theorem takeToken_ok (e : Engine) (t : Token) (s : State) (i : Instr) (h : decode e t = .ok i) :
    takeToken e t s = exec i s := by
  unfold takeToken; rw [h]

theorem takeToken_reserved (e : Engine) (t : Token) (s : State) (x : DecodeError) (h : decode e t = .error x) :
    takeToken e t s = .next (s.takeReserved e) := by
  unfold takeToken; rw [h]

/-- ENC.DATA where the gate lets it through. -/
theorem exec_encData_open (s : State) (c : Byte) (h : s.enc.state = .empty ∨ s.enc.state = .run) :
    exec (.encData c) s = s.commitEnc (s.enc.data .insertThenReseed c) := by
  rcases s.gate_cases .enc (s.commitEnc (s.enc.data reseedReading c)) with ⟨ha, _⟩ | ⟨ha, _⟩ | ⟨_, hb⟩
  · simp_all
  · simp_all
  · exact hb

/-- ENC.END where the gate lets it through. -/
theorem exec_encEnd_open (s : State) (h : s.enc.state = .empty ∨ s.enc.state = .run) :
    exec .encEnd s = .next { s with enc := s.enc.finish } := by
  rcases s.gate_cases .enc (s.commitEnc (.ok s.enc.finish)) with ⟨ha, _⟩ | ⟨ha, _⟩ | ⟨_, hb⟩
  · simp_all
  · simp_all
  · exact hb

/-- DEC.DATA where the gate lets it through. -/
theorem exec_decData_open (s : State) (b : Byte) (h : s.dec.state = .empty ∨ s.dec.state = .run) :
    exec (.decData b) s = s.commitDec (s.dec.data .insertThenReseed .literal b) := by
  rcases s.gate_cases .dec (s.commitDec (s.dec.data reseedReading aboveNextPolicy b)) with ⟨ha, _⟩ | ⟨ha, _⟩ | ⟨_, hb⟩
  · simp_all
  · simp_all
  · exact hb

/-- DEC.END where the gate lets it through. -/
theorem exec_decEnd_open (s : State) (h : s.dec.state = .empty ∨ s.dec.state = .run) :
    exec .decEnd s = .next { s with dec := s.dec.finish } := by
  rcases s.gate_cases .dec (s.commitDec (.ok s.dec.finish)) with ⟨ha, _⟩ | ⟨ha, _⟩ | ⟨_, hb⟩
  · simp_all
  · simp_all
  · exact hb

/-- Everything a token can do on the encode engine: nothing, an error entry, START, END, or DATA. -/
theorem takeToken_enc_cases (t : Token) (s s' : State) (h : takeToken .enc t s = .next s') :
    s' = s ∨ (∃ c, s' = s.raiseFault .enc c) ∨ (t = 0x200#10 ∧ s' = { s with enc := s.enc.start }) ∨
    (t = 0x100#10 ∧ (s.enc.state = .empty ∨ s.enc.state = .run) ∧ s' = { s with enc := s.enc.finish }) ∨
    (t.extractLsb' 8 2 = 0#2 ∧ (s.enc.state = .empty ∨ s.enc.state = .run) ∧
      ∃ e, s.enc.data .insertThenReseed (payloadOf t) = .ok e ∧ s' = { s with enc := e }) := by
  rcases decode_kinds t with ⟨h1,_,h2⟩ | ⟨h1,h2⟩ | ⟨h1,h2⟩ | ⟨h1,h2⟩ | ⟨h3,h4,h2⟩
  · rw [takeToken_ok _ _ _ _ (h2 .enc)] at h
    change execEncData _ s = _ at h
    unfold execEncData at h
    rcases s.gate_cases .enc (s.commitEnc (s.enc.data reseedReading (payloadOf t))) with ⟨ha,hb⟩|⟨ha,hb⟩|⟨ha,hb⟩ <;> rw [hb] at h
    · cases h; exact .inl rfl
    · cases h; exact .inr (.inl ⟨_, rfl⟩)
    · rw [reseedReading] at h
      cases hd : s.enc.data .insertThenReseed (payloadOf t) <;> rw [hd] at h <;> cases h
      · exact .inr (.inr (.inr (.inr ⟨h1, ha, _, rfl, rfl⟩)))
      · exact .inr (.inl ⟨_, rfl⟩)
  · rw [takeToken_ok _ _ _ _ (h2 .enc)] at h
    change execEncEnd s = _ at h
    unfold execEncEnd at h
    rcases s.gate_cases .enc (s.commitEnc (.ok s.enc.finish)) with ⟨ha,hb⟩|⟨ha,hb⟩|⟨ha,hb⟩ <;> rw [hb] at h <;> cases h
    · exact .inl rfl
    · exact .inr (.inl ⟨_, rfl⟩)
    · exact .inr (.inr (.inr (.inl ⟨h1, ha, rfl⟩)))
  · rw [takeToken_ok _ _ _ _ (h2 .enc)] at h; cases h
    exact .inr (.inr (.inl ⟨h1, rfl⟩))
  · rw [takeToken_ok _ _ _ _ (h2 .enc)] at h; cases h
    rcases s.takeAbort_cases .enc with ⟨ha, hb⟩ | ⟨ha, hb⟩ <;> rw [hb]
    · exact .inl rfl
    · exact .inr (.inl ⟨_, rfl⟩)
  · obtain ⟨x, hx⟩ := h2 .enc
    rw [takeToken_reserved _ _ _ _ hx] at h; cases h
    rcases s.takeReserved_cases .enc with ⟨ha, hb⟩ | ⟨ha, hb⟩ <;> rw [hb]
    · exact .inl rfl
    · exact .inr (.inl ⟨_, rfl⟩)

/-- Everything a token can do on the decode engine. -/
theorem takeToken_dec_cases (t : Token) (s s' : State) (h : takeToken .dec t s = .next s') :
    s' = s ∨ (∃ c, s' = s.raiseFault .dec c) ∨ (t = 0x200#10 ∧ s' = { s with dec := s.dec.start }) ∨
    (t = 0x100#10 ∧ (s.dec.state = .empty ∨ s.dec.state = .run) ∧ s' = { s with dec := s.dec.finish }) ∨
    (t.extractLsb' 8 2 = 0#2 ∧ (s.dec.state = .empty ∨ s.dec.state = .run) ∧
      ∃ d, s.dec.data .insertThenReseed .literal (payloadOf t) = .ok d ∧ s' = { s with dec := d }) := by
  rcases decode_kinds t with ⟨h1,_,h2⟩ | ⟨h1,h2⟩ | ⟨h1,h2⟩ | ⟨h1,h2⟩ | ⟨h3,h4,h2⟩
  · rw [takeToken_ok _ _ _ _ (h2 .dec)] at h
    change execDecData _ s = _ at h
    unfold execDecData at h
    rcases s.gate_cases .dec (s.commitDec (s.dec.data reseedReading aboveNextPolicy (payloadOf t))) with ⟨ha,hb⟩|⟨ha,hb⟩|⟨ha,hb⟩ <;> rw [hb] at h
    · cases h; exact .inl rfl
    · cases h; exact .inr (.inl ⟨_, rfl⟩)
    · rw [reseedReading, aboveNextPolicy] at h
      cases hd : s.dec.data .insertThenReseed .literal (payloadOf t) <;> rw [hd] at h <;> cases h
      · exact .inr (.inr (.inr (.inr ⟨h1, ha, _, rfl, rfl⟩)))
      · exact .inr (.inl ⟨_, rfl⟩)
  · rw [takeToken_ok _ _ _ _ (h2 .dec)] at h
    change execDecEnd s = _ at h
    unfold execDecEnd at h
    rcases s.gate_cases .dec (s.commitDec (.ok s.dec.finish)) with ⟨ha,hb⟩|⟨ha,hb⟩|⟨ha,hb⟩ <;> rw [hb] at h <;> cases h
    · exact .inl rfl
    · exact .inr (.inl ⟨_, rfl⟩)
    · exact .inr (.inr (.inr (.inl ⟨h1, ha, rfl⟩)))
  · rw [takeToken_ok _ _ _ _ (h2 .dec)] at h; cases h
    exact .inr (.inr (.inl ⟨h1, rfl⟩))
  · rw [takeToken_ok _ _ _ _ (h2 .dec)] at h; cases h
    rcases s.takeAbort_cases .dec with ⟨ha, hb⟩ | ⟨ha, hb⟩ <;> rw [hb]
    · exact .inl rfl
    · exact .inr (.inl ⟨_, rfl⟩)
  · obtain ⟨x, hx⟩ := h2 .dec
    rw [takeToken_reserved _ _ _ _ hx] at h; cases h
    rcases s.takeReserved_cases .dec with ⟨ha, hb⟩ | ⟨ha, hb⟩ <;> rw [hb]
    · exact .inl rfl
    · exact .inr (.inl ⟨_, rfl⟩)

end Sys2Proof.Machine
end

