-- ==== Sys2Proof/Laws/Flags.lean ====
section
/-! SUPPORT. Words put together from fields, as numbers: {a, b} is a * 2^(width of b) + b (R9). -/

namespace Sys2Proof.Machine

theorem append_toNat {n m : Nat} (x : BitVec n) (y : BitVec m) : (x ++ y).toNat = x.toNat * 2 ^ m + y.toNat := by
  rw [BitVec.toNat_append, ← Nat.shiftLeft_add_eq_or_of_lt y.isLt, Nat.shiftLeft_eq]

/-- STATUS as a number (R39). -/
theorem statusWord_toNat (n : Code) (p : BitVec 1) (g : BitVec 2) (e : BitVec 3) (s : BitVec 2) :
    (statusWord n p g e s).toNat =
      n.toNat * 65536 + p.toNat * 128 + g.toNat * 32 + e.toNat * 4 + s.toNat := by
  have h : (0#4 ++ n ++ 0#8 ++ p ++ g ++ e ++ s).toNat =
      n.toNat * 65536 + p.toNat * 128 + g.toNat * 32 + e.toNat * 4 + s.toNat := by
    simp only [append_toNat, BitVec.toNat_ofNat]
    omega
  exact h

theorem codeA_toNat (h b : Byte) : (codeA h b).toNat = h.toNat * 16 + (byteHigh4 b).toNat := append_toNat h (byteHigh4 b)

theorem codeB_toNat (n : Nibble) (b : Byte) : (codeB n b).toNat = n.toNat * 256 + b.toNat := append_toNat n b

theorem joinNibbles_toNat (a b : Nibble) : (joinNibbles a b).toNat = a.toNat * 16 + b.toNat := append_toNat a b

theorem codeHigh8_toNat (k : Code) : (codeHigh8 k).toNat = k.toNat / 16 := by
  have := k.isLt
  simp only [codeHigh8, BitVec.extractLsb'_toNat, Nat.shiftRight_eq_div_pow]
  omega

theorem codeHigh4_toNat (k : Code) : (codeHigh4 k).toNat = k.toNat / 256 := by
  have := k.isLt
  simp only [codeHigh4, BitVec.extractLsb'_toNat, Nat.shiftRight_eq_div_pow]
  omega

theorem codeLow4_toNat (k : Code) : (codeLow4 k).toNat = k.toNat % 16 := by
  simp [codeLow4, BitVec.extractLsb'_toNat]

theorem byteHigh4_toNat (b : Byte) : (byteHigh4 b).toNat = b.toNat / 16 := by
  have := b.isLt
  simp only [byteHigh4, BitVec.extractLsb'_toNat, Nat.shiftRight_eq_div_pow]
  omega

theorem byteLow4_toNat (b : Byte) : (byteLow4 b).toNat = b.toNat % 16 := by
  simp [byteLow4, BitVec.extractLsb'_toNat]

end Sys2Proof.Machine
end

