-- ==== Sys2Proof/Laws/PerInstr.lean ====
section
/-! SUPPORT. Facts about every instruction as syntax, one lemma per constructor: the family TokenForm says that the token
of an instruction is a legal one (R71), not a reserved encoding (R73). -/

namespace Sys2Proof.Laws.TokenForm

/-- The token of the instruction passes the check on tokens. -/
def Statement (i : Instr) : Prop := tokenWf (encode i) = true

theorem data_wf (c : Byte) : tokenWf (tokenOf 0b00#2 c) = true := by
  simp [tokenWf, op_tokenOf]

theorem encData (c : Byte) : Statement (.encData c) := data_wf c
theorem encEnd : Statement .encEnd := by unfold Statement; decide
theorem encStart : Statement .encStart := by unfold Statement; decide
theorem encAbort : Statement .encAbort := by unfold Statement; decide
theorem decData (b : Byte) : Statement (.decData b) := data_wf b
theorem decEnd : Statement .decEnd := by unfold Statement; decide
theorem decStart : Statement .decStart := by unfold Statement; decide
theorem decAbort : Statement .decAbort := by unfold Statement; decide

end Sys2Proof.Laws.TokenForm
end

