-- ==== Sys2Proof/Laws/Wire.lean ====
section
/-! SUPPORT. The wire format of a group of codewords: packing and unpacking undo each other (R75, R76). -/

namespace Sys2Proof.Machine

/-- A's nibbles come back, whatever shares byte1 with them. -/
theorem codeA_of_packed (a : Code) (m : Nibble) : codeA (codeHigh8 a) (joinNibbles (codeLow4 a) m) = a := by
  apply BitVec.eq_of_toNat_eq
  have := m.isLt
  rw [codeA_toNat, byteHigh4_toNat, joinNibbles_toNat, codeHigh8_toNat, codeLow4_toNat]
  omega

/-- B's nibbles come back, whatever shares byte1 with them. -/
theorem codeB_of_packed (n : Nibble) (b : Code) :
    codeB (byteLow4 (joinNibbles n (codeHigh4 b))) (codeLow8 b) = b := by
  apply BitVec.eq_of_toNat_eq
  have := b.isLt
  rw [codeB_toNat, byteLow4_toNat, joinNibbles_toNat, codeHigh4_toNat, codeLow8_toNat]
  omega

/-- After an even number of codewords the format starts afresh. -/
theorem wirePack_even : ∀ (ks tl : List Code), ks.length % 2 = 0 → wirePack (ks ++ tl) = wirePack ks ++ wirePack tl
  | [], _, _ => rfl
  | [_], _, h => by simp at h
  | a :: b :: rest, tl, h => by
    have := wirePack_even rest tl (by simp at h; omega)
    simp [wirePack, this]

end Sys2Proof.Machine
end

