-- ==== Sys2Proof/Tests/Slice0.lean ====
section
/-! SUPPORT. The model's own tests. First words and single steps, with expected results from the spec's rules and from
95_test_vectors.md; then, for every obligation that has hypotheses, a witness: concrete states and operands that meet
them together, clause by clause, at the boundary values of each clause. -/

namespace Sys2Proof.Machine.Tests

/-! ### Helpers -/

/-- The machine after reset with another encode engine. -/
def withEnc (e : Encoder) : State := { State.reset with enc := e }

/-- The machine after reset with another decode engine. -/
def withDec (d : Decoder) : State := { State.reset with dec := d }

/-- An encode engine in RUN that holds the code s. -/
def encRun (s : Code) (g : Generation) (par : Bool) (nib : Nibble) : Encoder :=
  { Encoder.reset with state := .run, s := s, dict := g, par := par, nib := nib }

/-- A decode engine in RUN that holds the sequence prev. -/
def decRun (prev : Seq) (g : Generation) (phase : GroupPhase) (h0 : Byte) (nib : Nibble) : Decoder :=
  { Decoder.reset with state := .run, prev := prev, table := g, phase := phase, h0 := h0, nib := nib }

/-- The generation after "AB" was inserted at 256 (R101, example). -/
def genAB : Generation := { entries := [(256, [0x41#8, 0x42#8])], next := 257#12, gen := 0#32 }

/-- What an instruction leaves of the encode engine, in the terms the vectors use: output, STATUS and GEN. -/
def encAfter (i : Instr) (s : State) : Option (List OutItem × Word32 × Word32) :=
  match exec i s with
  | .next t => some (t.enc.out, t.status .enc, t.genReg .enc)
  | .fault _ => none
  | .refused _ => none

/-- The same for the decode engine. -/
def decAfter (i : Instr) (s : State) : Option (List OutItem × Word32 × Word32) :=
  match exec i s with
  | .next t => some (t.dec.out, t.status .dec, t.genReg .dec)
  | .fault _ => none
  | .refused _ => none

/-- The same for a token. -/
def encTaken (t : Token) (s : State) : Option (List OutItem × Word32 × Word32) :=
  match takeToken .enc t s with
  | .next t => some (t.enc.out, t.status .enc, t.genReg .enc)
  | .fault _ => none
  | .refused _ => none

/-! ### Words, written out bit by bit from R70 and R71 -/

theorem test_decode_encData : decode .enc 0b0001000001#10 = .ok (.encData 0x41#8) := by decide
theorem test_decode_encEnd : decode .enc 0b0100000000#10 = .ok .encEnd := by decide
theorem test_decode_encStart : decode .enc 0b1000000000#10 = .ok .encStart := by decide
theorem test_decode_encAbort : decode .enc 0b1100000000#10 = .ok .encAbort := by decide
theorem test_decode_decData : decode .dec 0b0011111111#10 = .ok (.decData 0xFF#8) := by decide
theorem test_decode_decEnd : decode .dec 0b0100000000#10 = .ok .decEnd := by decide
theorem test_decode_decStart : decode .dec 0b1000000000#10 = .ok .decStart := by decide
theorem test_decode_decAbort : decode .dec 0b1100000000#10 = .ok .decAbort := by decide

/-- R73: a reserved token of each control operation, at the ends of its range. -/
theorem test_decode_reserved :
    decode .enc 0x101#10 = .error (.reservedEnd 0x01#8) ∧ decode .dec 0x1FF#10 = .error (.reservedEnd 0xFF#8) ∧
    decode .enc 0x201#10 = .error (.reservedStart 0x01#8) ∧ decode .dec 0x2FF#10 = .error (.reservedStart 0xFF#8) ∧
    decode .enc 0x301#10 = .error (.reservedAbort 0x01#8) ∧ decode .dec 0x3FF#10 = .error (.reservedAbort 0xFF#8) := by
  decide

/-- The table's words: the ten bits alone are the encode engine's, with the tag bit the decode engine's (log entry 4). -/
theorem test_table_words :
    decodeTableWord 16 0x041 = some (.encData 0x41#8) ∧ decodeTableWord 16 0x100 = some .encEnd ∧
    decodeTableWord 16 0x600 = some .decStart ∧ decodeTableWord 16 0x101 = none ∧
    decodeTableWord 16 0x800 = none := by decide

/-- R80: the four examples of the token notation, and the spellings of a byte. -/
theorem test_notation :
    tokenHex (encode (.encData 0x41#8)) = ['0', '4', '1'] ∧ tokenHex (encode .encEnd) = ['1', '0', '0'] ∧
    tokenHex (encode .decStart) = ['2', '0', '0'] ∧ tokenHex (encode .decAbort) = ['3', '0', '0'] ∧
    ByteLit.value (.chr 'A') = some 0x41#8 ∧ ByteLit.value (.dec 255) = some 0xFF#8 ∧
    ByteLit.value (.dec 256) = none := by decide

/-! ### The checks on terms from outside, each refusing an ill-formed one -/

theorem test_tokenWf : tokenWf 0x0FF#10 = true ∧ tokenWf 0x100#10 = true ∧ tokenWf 0x200#10 = true ∧
    tokenWf 0x300#10 = true := by decide
theorem test_tokenWf_refuses_end : tokenWf 0x101#10 = false := by decide
theorem test_tokenWf_refuses_start : tokenWf 0x2FF#10 = false := by decide
theorem test_tokenWf_refuses_abort : tokenWf 0x380#10 = false := by decide
theorem test_basesWf : basesWf { enc := 0, dec := 8 } = true ∧ basesWf { enc := 8, dec := 0 } = true := by decide
theorem test_basesWf_refuses_enc : basesWf { enc := 2, dec := 16 } = false := by decide
theorem test_basesWf_refuses_dec : basesWf { enc := 0, dec := 9 } = false := by decide
theorem test_basesWf_refuses_overlap : basesWf { enc := 4, dec := 8 } = false := by decide

/-! ### Dictionary, CodeTable and bitpacker -/

/-- R101, V-DICT-2. -/
theorem test_find : genAB.find .insertThenReseed [0x41#8, 0x42#8] = some 256#12 ∧
    genAB.find .insertThenReseed [0x42#8, 0x41#8] = none := by decide

/-- V-DICT-5, V-DICT-6: the insertion at 4095 reseeds and counts, modulo 2^32. -/
theorem test_insert_reseeds :
    Generation.insert .insertThenReseed [0x41#8, 0x41#8] { entries := [], next := 4095#12, gen := 0xFFFFFFFF#32 } =
      { entries := [], next := 256#12, gen := 0#32 } := by decide

/-- 93_implementation_defined.md 3, RESEED_INSTEAD: the insertion at 4095 stays, and the one after it reseeds and inserts
nothing. -/
theorem test_reseed_instead :
    Generation.bound .reseedInstead
      (Generation.insert .reseedInstead [0x41#8, 0x41#8] { entries := [], next := 4095#12, gen := 0#32 }) = 4096 ∧
    Generation.insert .reseedInstead [0x41#8, 0x42#8] { entries := [(4095, [0x41#8, 0x41#8])], next := 0#12, gen := 0#32 } =
      { entries := [], next := 256#12, gen := 1#32 } := by decide

/-- V-PK-1 to V-PK-3. -/
theorem test_pack :
    (Encoder.reset.pack 0xABC#12).out = [.byte 0xAB#8] ∧ (Encoder.reset.pack 0xABC#12).nib = 0xC#4 ∧
    ((Encoder.reset.pack 0xABC#12).pack 0x123#12).out = [.byte 0xAB#8, .byte 0xC1#8, .byte 0x23#8] ∧
    (Encoder.reset.pack 0xABC#12).packFlush.out = [.byte 0xAB#8, .byte 0xC0#8] := by decide

/-- V-PK-6 to V-PK-8. -/
theorem test_unpack :
    (Decoder.reset.unpack 0xAB#8).2 = none ∧
    ((Decoder.reset.unpack 0xAB#8).1.unpack 0xC1#8).2 = some 0xABC#12 ∧
    (((Decoder.reset.unpack 0xAB#8).1.unpack 0xC1#8).1.unpack 0x23#8).2 = some 0x123#12 := by decide

/-- S6 of 95_test_vectors.md, two of its rows. -/
theorem test_wire : wirePack [0x041#12, 0x100#12] = [0x04#8, 0x11#8, 0x00#8] ∧
    wirePack [0xF00#12, 0x00F#12] = [0xF0#8, 0x00#8, 0x0F#8] := by decide

/-! ### One step of each instruction -/

/-- R142's example: s = "A", NEXT = 256, PAR = 0, DATA 'A' misses. -/
theorem test_encData_miss :
    exec (.encData 0x41#8) (withEnc (encRun 65#12 Generation.reset false 0#4)) =
      .next (withEnc { Encoder.reset with
        state := .run, s := 65#12, par := true, nib := 0x1#4, out := [.byte 0x04#8],
        dict := { entries := [(256, [0x41#8, 0x41#8])], next := 257#12, gen := 0#32 } }) := rfl

/-- V-PRG-1: a hit on AB puts out nothing and moves s to 256. -/
theorem test_encData_hit :
    exec (.encData 0x42#8) (withEnc (encRun 65#12 genAB false 0#4)) =
      .next (withEnc (encRun 256#12 genAB false 0#4)) := rfl

/-- V-ENC-2: END after "A". -/
theorem test_encEnd_odd :
    encAfter .encEnd (withEnc (encRun 65#12 Generation.reset false 0#4)) =
      some ([.byte 0x04#8, .byte 0x10#8, .eos], 0x01000002#32, 0#32) := by decide

/-- V-PRG-1, the last step: code 258 as B after the byte0 of 256. -/
theorem test_encEnd_even :
    encAfter .encEnd (withEnc (encRun 258#12 { genAB with next := 259#12 } true 0#4)) =
      some ([.byte 0x01#8, .byte 0x02#8, .eos], 0x01030002#32, 0#32) := by decide

/-- V-ENC-17: START in the middle of a stream keeps what is out and flushes nothing. -/
theorem test_encStart :
    encAfter .encStart (withEnc { encRun 66#12 genAB true 0x1#4 with out := [.byte 0x04#8] }) =
      some ([.byte 0x04#8], 0x01000000#32, 0#32) := by decide

/-- V-ENC-10. -/
theorem test_encAbort :
    encAfter .encAbort (withEnc (encRun 65#12 Generation.reset false 0#4)) = some ([], 0x0100000F#32, 0#32) := by decide

/-- V-ENC-16: DATA in DONE is SEQ. V-ENC-14: BAD_TOKEN before SEQ in DONE. V-ENC-13: in ERROR a reserved START is
ignored. -/
theorem test_error_priority :
    encTaken 0x042#10 (withEnc { Encoder.reset with state := .done }) = some ([], 0x01000007#32, 0#32) ∧
    encTaken 0x1FF#10 (withEnc { Encoder.reset with state := .done }) = some ([], 0x0100000B#32, 0#32) ∧
    encTaken 0x201#10 (withEnc { Encoder.reset with state := .error, err := .abort }) =
      some ([], 0x0100000F#32, 0#32) := by decide

/-- V-DEC-6: the "code equals next index" case, 256 with DEC.NEXT = 256 after "A". -/
theorem test_decData_next_index :
    decAfter (.decData 0x00#8) (withDec (decRun [0x41#8] Generation.reset .byte2 0x04#8 0x1#4)) =
      some ([.byte 0x41#8, .byte 0x41#8], 0x01010001#32, 0#32) := by decide

/-- V-DEC-10: BAD_FIRST, with the unpacking undone. -/
theorem test_decData_bad_first :
    decAfter (.decData 0x00#8) (withDec { Decoder.reset with phase := .byte1, h0 := 0x10#8 }) =
      some ([], 0x01000033#32, 0#32) := by decide

/-- V-DEC-2: a lone byte0 is dropped. -/
theorem test_decEnd_lone_byte :
    decAfter .decEnd (withDec { Decoder.reset with phase := .byte1, h0 := 0x04#8 }) =
      some ([.eos], 0x01000022#32, 0#32) := by decide

/-- V-DEC-4: a nonzero pad nibble is ignored. -/
theorem test_decEnd_pad :
    decAfter .decEnd (withDec (decRun [0x41#8] Generation.reset .byte2 0x04#8 0xF#4)) =
      some ([.eos], 0x010000C2#32, 0#32) := by decide

/-- V-PRG-5: START leaves the error. -/
theorem test_decStart :
    decAfter .decStart (withDec { Decoder.reset with state := .error, err := .badFirst, phase := .byte1 }) =
      some ([], 0x01000000#32, 0#32) := by decide

/-- R164's example. -/
theorem test_decAbort : decAfter .decAbort State.reset = some ([], 0x0100000F#32, 0#32) := by decide

/-- ABOVE_NEXT_POLICY = REFUSE, which the machine does not run at: a codeword above NEXT has no meaning. -/
theorem test_above_next_refused :
    (decRun [0x41#8] Generation.reset .byte2 0x04#8 0x1#4).data .insertThenReseed .refuse 0x01#8 =
      .refuse (.aboveNext 257#12) := by decide

/-- R57: reads of another width or offset. R220: reset empties the channels. -/
theorem test_port : State.reset.blockRead .enc 0 32 = 0x01000000#32 ∧ State.reset.blockRead .enc 0 16 = 0#32 ∧
    State.reset.blockRead .dec 5 32 = 0#32 ∧ (State.offer .enc 0x041#10 State.reset).hostReset = State.reset := by decide

/-! ### Full generations, for the witnesses at the upper bounds -/

/-- The generation after n insertions on an input of one repeated byte: code 256+i holds i+2 bytes (V-ENC-9). -/
def genA : Nat → Generation
  | 0 => Generation.reset
  | n + 1 => (genA n).insert .insertThenReseed (List.replicate (n + 1) 0x41#8 ++ [0x41#8])

/-- The last code of genA n. -/
def lastA (n : Nat) : Code := if n = 0 then 65#12 else BitVec.ofNat 12 (255 + n)

theorem genA_props : ∀ n, n ≤ 3839 → (genA n).Domain ∧ (genA n).Shape ∧ (genA n).next.toNat = 256 + n ∧
    (genA n).seq (lastA n) = some (List.replicate (n + 1) 0x41#8) ∧
    ∀ k u, (genA n).seq k = some u → u.length ≤ n + 1
  | 0, _ => ⟨Generation.domain_empty _, Generation.shape_empty _ _, rfl, rfl, by
      intro k u hk
      have h : (genA 0).seq k = if k.toNat < nBase then some [codeLow8 k] else none := Generation.seq_empty _ _ k
      rw [h] at hk
      split at hk <;> cases hk
      simp⟩
  | n + 1, hn => by
    obtain ⟨h1, h2, h3, h4, h5⟩ := genA_props n (by omega)
    have hlt : (genA n).next.toNat < 4095 := by omega
    have hseq := Generation.seq_insert_lt h1 (List.replicate (n + 1) 0x41#8 ++ [0x41#8]) hlt
    have hnx : (genA (n + 1)).next.toNat = 256 + (n + 1) := by
      show ((genA n).insert .insertThenReseed _).next.toNat = _
      rw [Generation.insert_lt h1 _ hlt]
      simp only [BitVec.toNat_add, BitVec.toNat_ofNat]
      omega
    have hlast : lastA (n + 1) = (genA n).next := by
      apply BitVec.eq_of_toNat_eq
      simp only [lastA, Nat.succ_ne_zero, if_false, BitVec.toNat_ofNat]
      omega
    refine ⟨Generation.insert_domain h1 _,
      Generation.insert_shape h1 h2 _ _ _ h4 (fun k hk => by have := h5 k _ hk; simp at this), hnx, ?_, ?_⟩
    · show ((genA n).insert .insertThenReseed _).seq _ = _
      rw [hseq, if_pos hlast, List.replicate_succ' (n := n + 1)]
    · intro k u hk
      have hk' : ((genA n).insert .insertThenReseed _).seq k = some u := hk
      rw [hseq] at hk'
      split at hk'
      · cases hk'; simp
      · have := h5 k u hk'; omega

theorem genA_bounded (n : Nat) (hn : n ≤ 3839) : (genA n).Bounded := by
  intro k u hk hu
  obtain ⟨h1, h2, h3, _, _⟩ := genA_props n hn
  have hl := (Generation.shape_length h2 _ k u le_rfl hu).2.1 hk
  have := Generation.Domain.lt_of_seq h1 hu
  simp only [maxSeqLen]
  omega

theorem reset_inv : State.reset.Inv := by
  refine ⟨⟨Generation.domain_empty _, Generation.shape_empty _ _, ?_, ?_, ?_, ?_, ?_⟩,
    ⟨Generation.domain_empty _, Generation.bounded_empty _ _, ?_, ?_, ?_⟩⟩ <;> decide

/-- An encode engine in RUN on a generation of this kind meets the invariant, with any code of its as the match. -/
theorem encRun_inv (n : Nat) (hn : n ≤ 3839) (s : Code) (hs : s.toNat < 256 + n) (par : Bool) (nib : Nibble) :
    (withEnc (encRun s (genA n) par nib)).Inv := by
  obtain ⟨h1, h2, h3, _, _⟩ := genA_props n hn
  refine ⟨⟨h1, h2, fun _ => ?_, ?_, ?_, ?_, ?_⟩, reset_inv.dec⟩
  · show s.toNat < (genA n).next.toNat
    omega
  all_goals simp [withEnc, encRun, Encoder.reset]

/-- The same for a decode engine in RUN. -/
theorem decRun_inv (n : Nat) (hn : n ≤ 3839) (prev : Seq) (h : 1 ≤ prev.length ∧ prev.length ≤ maxSeqLen)
    (phase : GroupPhase) (h0 : Byte) (nib : Nibble) : (withDec (decRun prev (genA n) phase h0 nib)).Inv := by
  obtain ⟨h1, _, _, _, _⟩ := genA_props n hn
  refine ⟨reset_inv.enc, ⟨h1, genA_bounded n hn, fun _ => h, ?_, ?_⟩⟩
  all_goals simp [withDec, decRun, Decoder.reset]

/-- The states after END and after an error meet it too. -/
theorem encDone_inv : (withEnc { Encoder.reset with state := .done }).Inv := by
  refine ⟨⟨Generation.domain_empty _, Generation.shape_empty _ _, ?_, ?_, ?_, ?_, ?_⟩, reset_inv.dec⟩ <;> decide

theorem decDone_inv : (withDec { Decoder.reset with state := .done }).Inv := by
  refine ⟨reset_inv.enc, ⟨Generation.domain_empty _, Generation.bounded_empty _ _, ?_, ?_, ?_⟩⟩ <;> decide

/-- EMPTY with byte0 of a group held. -/
theorem decHeld_inv (b : Byte) : (withDec { Decoder.reset with phase := .byte1, h0 := b }).Inv := by
  refine ⟨reset_inv.enc, ⟨Generation.domain_empty _, Generation.bounded_empty _ _, ?_, ?_, ?_⟩⟩ <;>
    simp [withDec, Decoder.reset, Generation.reset]

/-- The longest entry that can be packed (R7, V-ENC-9). -/
theorem seq_genA_last : (genA 3839).seq 4094#12 = some (List.replicate 3840 0x41#8) :=
  (genA_props 3839 le_rfl).2.2.2.1

theorem next_genA (n : Nat) (hn : n ≤ 3839) : (genA n).next = BitVec.ofNat 12 (256 + n) := by
  apply BitVec.eq_of_toNat_eq
  rw [(genA_props n hn).2.2.1]
  simp only [BitVec.toNat_ofNat]
  omega

/-- No entry of genA n is longer than the last. -/
theorem genA_absent (n : Nat) (hn : n ≤ 3839) (k : Code) (u : Seq) (h : n + 1 < u.length) : (genA n).seq k ≠ some u :=
  fun hk => absurd ((genA_props n hn).2.2.2.2 k u hk) (by omega)

/-- No dynamic entry of genA n has a byte other than 0x41 (used for a miss on another byte). -/
theorem genA_miss (n : Nat) (hn : n ≤ 3839) (k : Code) (u : Seq) (c : Byte) (hu : 1 ≤ u.length) (hc : c ≠ 0x41#8) :
    (genA n).seq k ≠ some (u ++ [c]) := by
  induction n with
  | zero =>
    intro hk
    have h : (genA 0).seq k = if k.toNat < nBase then some [codeLow8 k] else none := Generation.seq_empty _ _ k
    rw [h] at hk
    split at hk
    · have := congrArg List.length (Option.some.inj hk)
      simp only [List.length_cons, List.length_nil, List.length_append] at this
      omega
    · cases hk
  | succ n ih =>
    intro hk
    obtain ⟨h1, _, h3, _, _⟩ := genA_props n (by omega)
    have hk' : ((genA n).insert .insertThenReseed _).seq k = some (u ++ [c]) := hk
    rw [Generation.seq_insert_lt h1 _ (by omega)] at hk'
    split at hk'
    · have := congrArg List.getLast? (Option.some.inj hk')
      simp at this
      exact hc this.symm
    · exact ih (by omega) hk'

/-! ### Witnesses: encodings, steps and schedule -/

/-- A state in ERROR on each engine. -/
def encError : State := withEnc { Encoder.reset with state := .error, err := .abort }
def decError : State := withDec { Decoder.reset with state := .error, err := .abort }

theorem witness_DecodeEncodeAgree : decode .dec 0x0FF#10 = .ok (.decData 0xFF#8) ∧ decode .enc 0x300#10 = .ok .encAbort := by
  decide

theorem witness_OpcodeMap : (0x0FF#10).extractLsb' 8 2 = 0b00#2 := by decide

theorem witness_ReservedTokens :
    ((0x101#10).extractLsb' 8 2 ≠ 0b00#2 ∧ (0x101#10).extractLsb' 0 8 ≠ 0x00#8 ∧ State.reset.streamState .enc ≠ .error) ∧
    ((0x3FF#10).extractLsb' 8 2 ≠ 0b00#2 ∧ (0x3FF#10).extractLsb' 0 8 ≠ 0x00#8 ∧ decError.streamState .dec = .error) := by
  decide

theorem witness_PseudoOperationsExpand :
    [0x41#8, 0x7E#8].map BitVec.toNat = ['A', '~'].map Char.toNat ∧ ∀ c ∈ ['A', '~'], c.toNat < 128 :=
  ⟨rfl, by simp⟩

theorem witness_StepRunsDecodedToken :
    (State.channel .dec { State.reset with decIn := [0x041#10], sched := [.dec] } = [0x041#10]) ∧
    (State.channel .enc { State.reset with encIn := [0x041#10, 0x100#10] } = 0x041#10 :: [0x100#10]) ∧
    (State.channel .dec { State.reset with decIn := [0x041#10] } = [0x041#10] ∧
      State.encIn { State.reset with decIn := [0x041#10] } = []) ∧
    decode .dec 0x041#10 = .ok (.decData 0x41#8) := by decide

theorem witness_IdleTurnKeepsState :
    (State.sched { State.reset with sched := [.enc, .dec], decIn := [0x100#10] } = .enc :: [.dec] ∧
      State.channel .enc { State.reset with sched := [.enc, .dec], decIn := [0x100#10] } = []) ∧
    (State.reset.sched = [] ∧ State.reset.encIn = [] ∧ State.reset.decIn = []) := by decide

theorem witness_PlacedWordIsNext :
    decodeTableWord 16 0x0FF = some (.encData 0xFF#8) ∧ decodeTableWord 16 0x700 = some .decAbort := by decide

theorem witness_ScheduleDoesNotMatter :
    State.Inv { State.reset with encIn := [0x041#10, 0x100#10], decIn := [0x004#10], sched := [.dec, .dec, .enc] } :=
  ⟨reset_inv.enc, reset_inv.dec⟩

/-! ### Witnesses: dispatch and errors -/

theorem witness_ErrorStateIgnoresTokens :
    encError.streamState .enc = .error ∧ decError.streamState .dec = .error ∧ (0x201#10 : Token) ≠ 0x200#10 := by decide

theorem witness_ErrorsArePrecise :
    takeToken .enc 0x300#10 State.reset = .next (State.reset.raiseFault .enc .abort) ∧
    State.reset.streamState .enc ≠ .error ∧ (State.reset.raiseFault .enc .abort).streamState .enc = .error ∧
    takeToken .dec 0x101#10 State.reset = .next (State.reset.raiseFault .dec .badToken) ∧
    (State.reset.raiseFault .dec .badToken).streamState .dec = .error := ⟨rfl, by decide, rfl, rfl, rfl⟩

/-- A decode engine whose PREV has n bytes of 0x41, at PHASE 2 with NIB 0. -/
def longPrev (n : Nat) : State := withDec (decRun (List.replicate n 0x41#8) (genA 0) .byte2 0x00#8 0x0#4)

theorem longPrev_inv (n : Nat) (h : 1 ≤ n ∧ n ≤ 3841) : (longPrev n).Inv :=
  decRun_inv 0 (by omega) _ (by simpa [maxSeqLen] using h) _ _ _

theorem longPrev_length (n : Nat) : (longPrev n).dec.prev.length = n := List.length_replicate

/-- R201, one witness per cause: SEQ on both engines' DATA and END, BAD_TOKEN in DONE, ABORT, BAD_FIRST at 256,
OVERLONG at 3842 bytes, and NONE. -/
theorem witness_CauseTable :
    ((withEnc { Encoder.reset with state := .done }).Inv ∧
      takeToken .enc 0x0FF#10 (withEnc { Encoder.reset with state := .done }) =
        .next ((withEnc { Encoder.reset with state := .done }).raiseFault .enc .seq)) ∧
    ((withDec { Decoder.reset with state := .done }).Inv ∧
      takeToken .dec 0x100#10 (withDec { Decoder.reset with state := .done }) =
        .next ((withDec { Decoder.reset with state := .done }).raiseFault .dec .seq)) ∧
    ((withEnc { Encoder.reset with state := .done }).Inv ∧
      takeToken .enc 0x1FF#10 (withEnc { Encoder.reset with state := .done }) =
        .next ((withEnc { Encoder.reset with state := .done }).raiseFault .enc .badToken)) ∧
    (State.reset.Inv ∧ takeToken .dec 0x300#10 State.reset = .next (State.reset.raiseFault .dec .abort)) ∧
    ((withDec { Decoder.reset with phase := .byte1, h0 := 0x10#8 }).Inv ∧
      takeToken .dec 0x000#10 (withDec { Decoder.reset with phase := .byte1, h0 := 0x10#8 }) =
        .next ((withDec { Decoder.reset with phase := .byte1, h0 := 0x10#8 }).raiseFault .dec .badFirst)) ∧
    ((longPrev 3841).Inv ∧ (longPrev 3841).dec.state = .run ∧
      ((longPrev 3841).dec.unpack 0x00#8).2 = some 0#12 ∧ 3841 < (longPrev 3841).dec.prev.length + 1) ∧
    (State.reset.Inv ∧ takeToken .enc 0x200#10 State.reset = .next State.reset) :=
  ⟨⟨encDone_inv, rfl⟩, ⟨decDone_inv, rfl⟩, ⟨encDone_inv, rfl⟩, ⟨reset_inv, rfl⟩, ⟨decHeld_inv _, rfl⟩,
    ⟨longPrev_inv _ (by omega), rfl, rfl, by rw [longPrev_length]; omega⟩, reset_inv, rfl⟩

theorem witness_ErrorLeftByStartOrReset :
    encError.streamState .enc = .error ∧
    takeToken .enc 0x200#10 encError = .next State.reset ∧ State.reset.streamState .enc ≠ .error ∧
    decError.streamState .dec = .error ∧ takeToken .dec 0x200#10 decError = .next State.reset :=
  ⟨rfl, rfl, by decide, rfl, rfl⟩

theorem witness_EnginesAreIndependent :
    (∃ t, exec (.encData 0x41#8) State.reset = .next t) ∧ (∃ t, exec (.decData 0x04#8) State.reset = .next t) :=
  ⟨⟨_, rfl⟩, _, rfl⟩

theorem witness_EnginesCommute :
    (∃ a, takeToken .enc 0x041#10 State.reset = .next a) ∧ (∃ b, takeToken .dec 0x004#10 State.reset = .next b) :=
  ⟨⟨_, rfl⟩, _, rfl⟩

/-! ### Witnesses: the encode engine -/

/-- DATA: the first byte; a miss in a fresh generation; a hit; a miss at NEXT = 4094; the reseeding miss at NEXT = 4095. -/
theorem witness_EncDataMatchesGreedily :
    (State.reset.Inv ∧ State.reset.enc.state = .empty) ∧
    ((withEnc (encRun 65#12 (genA 0) false 0#4)).Inv ∧ (genA 0).next = 256#12 ∧ (genA 0).seq 65#12 = some [0x41#8] ∧
      ∀ k, (genA 0).seq k ≠ some ([0x41#8] ++ [0x41#8])) ∧
    ((withEnc (encRun 65#12 (genA 1) true 1#4)).Inv ∧ (genA 1).seq 65#12 = some [0x41#8] ∧
      (genA 1).seq 256#12 = some ([0x41#8] ++ [0x41#8])) ∧
    ((withEnc (encRun 65#12 (genA 3838) true 1#4)).Inv ∧ (genA 3838).next = 4094#12 ∧
      (genA 3838).seq 65#12 = some [0x41#8] ∧ ∀ k, (genA 3838).seq k ≠ some ([0x41#8] ++ [0x42#8])) ∧
    ((withEnc (encRun 4094#12 (genA 3839) false 0#4)).Inv ∧ (genA 3839).next = 4095#12 ∧
      (genA 3839).seq 4094#12 = some (List.replicate 3840 0x41#8) ∧
      ∀ k, (genA 3839).seq k ≠ some (List.replicate 3840 0x41#8 ++ [0x41#8])) :=
  ⟨⟨reset_inv, rfl⟩,
    ⟨encRun_inv 0 (by omega) _ (by decide) _ _, rfl, rfl, fun k => genA_absent 0 (by omega) k _ (by simp)⟩,
    ⟨encRun_inv 1 (by omega) _ (by decide) _ _, rfl, rfl⟩,
    ⟨encRun_inv 3838 (by omega) _ (by decide) _ _, next_genA _ (by omega), Generation.seq_baseCode _ 0x41#8,
      fun k => genA_miss 3838 (by omega) k _ _ (by simp) (by decide)⟩,
    ⟨encRun_inv 3839 (by omega) _ (by decide) _ _, next_genA _ (by omega), seq_genA_last,
      fun k => genA_absent 3839 (by omega) k _ (by rw [List.length_append, List.length_replicate]; exact Nat.lt_succ_self _)⟩⟩

theorem witness_EncEndFlushes :
    (State.reset.enc.state = .empty ∧ State.reset.enc.par = false) ∧
    ((withEnc (encRun 258#12 (genA 3) true 0#4)).enc.state = .run ∧ (withEnc (encRun 258#12 (genA 3) true 0#4)).enc.par = true) ∧
    ((withEnc (encRun 65#12 (genA 0) false 0#4)).enc.state = .run ∧ (withEnc (encRun 65#12 (genA 0) false 0#4)).enc.par = false) :=
  ⟨⟨rfl, rfl⟩, ⟨rfl, rfl⟩, rfl, rfl⟩

theorem witness_EncAbortEntersError :
    State.reset.enc.state ≠ .error ∧ (withEnc { Encoder.reset with state := .done }).enc.state ≠ .error ∧
    encError.enc.state = .error := by decide

theorem witness_EncodeEngineFrame :
    (∃ t, exec (.encData 0x42#8) (withEnc (encRun 65#12 (genA 1) false 0#4)) = .next t) ∧
    ((genA 1).next ≠ 4095#12 ∧ ∃ k : Code, k ≠ (genA 1).next) ∧
    (∃ t, exec .encEnd (withEnc (encRun 65#12 (genA 1) true 0#4)) = .next t) ∧
    (∃ t, exec .encAbort State.reset = .next t) ∧ (∃ t, exec .encStart State.reset = .next t) ∧
    (∃ t, exec (.encData 0x41#8) State.reset = .next t ∧ State.reset.enc.state ≠ .run ∧ t.enc.out = State.reset.enc.out) :=
  ⟨⟨_, rfl⟩, ⟨by decide, 256#12, by decide⟩, ⟨_, rfl⟩, ⟨_, rfl⟩, ⟨_, rfl⟩, _, rfl, by decide, rfl⟩

/-- A miss packs the match's code; END packs it too, at the largest code that can be packed. -/
theorem witness_PackedCodeIsPresent :
    ((withEnc (encRun 65#12 (genA 1) false 0#4)).Inv ∧
      (withEnc (encRun 65#12 (genA 1) false 0#4)).packed 0x042#10 = some 65#12) ∧
    ((withEnc (encRun 4094#12 (genA 3839) false 0#4)).Inv ∧
      (withEnc (encRun 4094#12 (genA 3839) false 0#4)).packed 0x100#10 = some 4094#12) :=
  ⟨⟨encRun_inv 1 (by omega) _ (by decide) _ _, rfl⟩, encRun_inv 3839 (by omega) _ (by decide) _ _, rfl⟩

/-- The match "AA" (code 256) misses on 'B'; the entry "A" is a prefix of the input from the match on. -/
theorem witness_PackedPrefixIsLongest :
    (withEnc (encRun 256#12 (genA 1) false 0#4)).Inv ∧
    (withEnc (encRun 256#12 (genA 1) false 0#4)).enc.state = .run ∧
    (genA 1).seq 256#12 = some [0x41#8, 0x41#8] ∧
    (∀ k, (genA 1).seq k ≠ some ([0x41#8, 0x41#8] ++ [0x42#8])) ∧
    (genA 1).seq 65#12 = some [0x41#8] ∧ [0x41#8] <+: [0x41#8, 0x41#8] ++ 0x42#8 :: [0x43#8] :=
  ⟨encRun_inv 1 (by omega) _ (by decide) _ _, rfl, rfl,
    fun k => genA_miss 1 (by omega) k _ _ (by simp) (by decide), rfl, [0x41#8, 0x42#8, 0x43#8], rfl⟩

theorem witness_EncoderWritesWireFormat : ([] : List Byte) = [] ∧ [0x41#8] ≠ [] := by decide

/-! ### Witnesses: the decode engine -/

theorem witness_DecDataHoldsFirstByte :
    (State.reset.dec.state = .empty ∧ State.reset.dec.phase = .byte0) ∧
    ((withDec (decRun [0x41#8] (genA 0) .byte0 0#8 0#4)).dec.state = .run ∧
      (withDec (decRun [0x41#8] (genA 0) .byte0 0#8 0#4)).dec.phase = .byte0) := by decide

/-- The first codeword at 255 and at 256; then codewords at NEXT - 1, at NEXT and above it, an insertion at NEXT = 4095,
and a sequence to insert of 3841 and of 3842 bytes. -/
theorem witness_DecDataDecodesCodeword :
    ((withDec { Decoder.reset with phase := .byte1, h0 := 0x0F#8 }).Inv ∧
      ((withDec { Decoder.reset with phase := .byte1, h0 := 0x0F#8 }).dec.unpack 0xF0#8).2 = some 255#12) ∧
    ((withDec { Decoder.reset with phase := .byte1, h0 := 0x10#8 }).Inv ∧
      ((withDec { Decoder.reset with phase := .byte1, h0 := 0x10#8 }).dec.unpack 0x00#8).2 = some 256#12) ∧
    ((withDec (decRun [0x41#8] (genA 1) .byte2 0#8 1#4)).Inv ∧ (genA 1).next = 257#12 ∧
      ((decRun [0x41#8] (genA 1) .byte2 0#8 1#4).unpack 0x00#8).2 = some 256#12 ∧
      ((decRun [0x41#8] (genA 1) .byte2 0#8 1#4).unpack 0x01#8).2 = some 257#12 ∧
      ((decRun [0x41#8] (genA 1) .byte2 0#8 1#4).unpack 0x02#8).2 = some 258#12) ∧
    ((withDec (decRun [0x41#8] (genA 3839) .byte2 0#8 0#4)).Inv ∧ (genA 3839).next = 4095#12 ∧
      ((decRun [0x41#8] (genA 3839) .byte2 0#8 0xF#4).unpack 0xFF#8).2 = some 4095#12) ∧
    ((longPrev 3840).Inv ∧ ((longPrev 3840).dec.unpack 0x00#8).2 = some 0#12 ∧
      (longPrev 3840).dec.prev.length + 1 ≤ 3841) ∧
    ((longPrev 3841).Inv ∧ ((longPrev 3841).dec.unpack 0x00#8).2 = some 0#12 ∧
      3841 < (longPrev 3841).dec.prev.length + 1) :=
  ⟨⟨decHeld_inv _, rfl⟩, ⟨decHeld_inv _, rfl⟩,
    ⟨decRun_inv 1 (by omega) _ (by decide) _ _ _, rfl, rfl, rfl, rfl⟩,
    ⟨decRun_inv 3839 (by omega) _ (by decide) _ _ _, next_genA _ (by omega), rfl⟩,
    ⟨longPrev_inv _ (by omega), rfl, by rw [longPrev_length]⟩,
    longPrev_inv _ (by omega), rfl, by rw [longPrev_length]; omega⟩

/-- A codeword just above NEXT, with PREV of n + 1 bytes, up to the 3840 that the statement allows. -/
theorem above_next_hyps (n : Nat) (h : n ≤ 3839) :
    (withDec (decRun (List.replicate (n + 1) 0x41#8) (genA 0) .byte2 0#8 1#4)).Inv ∧
    (decRun (List.replicate (n + 1) 0x41#8) (genA 0) .byte2 0#8 1#4).unpack 0x01#8 =
      (decRun (List.replicate (n + 1) 0x41#8) (genA 0) .byte0 0#8 1#4, some 257#12) ∧
    (genA 0).next.toNat < (257#12).toNat ∧
    (decRun (List.replicate (n + 1) 0x41#8) (genA 0) .byte2 0#8 1#4).prev = 0x41#8 :: List.replicate n 0x41#8 ∧
    (decRun (List.replicate (n + 1) 0x41#8) (genA 0) .byte2 0#8 1#4).prev.length < 3841 :=
  ⟨decRun_inv 0 (by omega) _ (by simp only [List.length_replicate, maxSeqLen]; omega) _ _ _,
    by simp [Decoder.unpack, decRun, codeB], by decide, rfl, by simp only [decRun, List.length_replicate]; omega⟩

theorem witness_CodeAboveNextIsDecoded :
    (∃ s : State, s.Inv ∧ s.dec.state = .run ∧ ∃ d, s.dec.unpack 0x01#8 = (d, some 257#12) ∧
      s.dec.table.next.toNat < (257#12).toNat ∧ s.dec.prev = 0x41#8 :: [] ∧ s.dec.prev.length < 3841) ∧
    ∃ s : State, s.Inv ∧ s.dec.state = .run ∧ ∃ d, s.dec.unpack 0x01#8 = (d, some 257#12) ∧
      s.dec.table.next.toNat < (257#12).toNat ∧ s.dec.prev = 0x41#8 :: List.replicate 3839 0x41#8 ∧
      s.dec.prev.length < 3841 :=
  ⟨⟨_, (above_next_hyps 0 (by omega)).1, rfl, _, (above_next_hyps 0 (by omega)).2⟩,
    _, (above_next_hyps 3839 le_rfl).1, rfl, _, (above_next_hyps 3839 le_rfl).2⟩

theorem witness_DecEndPutsOutEos :
    State.reset.dec.state = .empty ∧ (withDec (decRun [0x41#8] (genA 0) .byte2 0#8 1#4)).dec.state = .run := ⟨rfl, rfl⟩

theorem witness_DecAbortEntersError :
    State.reset.dec.state ≠ .error ∧ (withDec { Decoder.reset with state := .done }).dec.state ≠ .error ∧
    decError.dec.state = .error := by decide

theorem witness_DecodeEngineFrame :
    (∃ t, exec (.decData 0x41#8) (withDec (decRun [0x41#8] (genA 1) .byte2 0#8 0#4)) = .next t) ∧
    ((genA 1).next ≠ 4095#12 ∧ ∃ k : Code, k ≠ (genA 1).next) ∧
    (∃ t, exec (.decData 0x41#8) (withDec (decRun [0x41#8] (genA 1) .byte0 0#8 0#4)) = .next t) ∧
    (∃ t, exec (.decData 0x00#8) (withDec { Decoder.reset with phase := .byte1, h0 := 0x04#8 }) = .next t) ∧
    (∃ t, exec .decEnd State.reset = .next t) ∧ (∃ t, exec .decAbort State.reset = .next t) ∧
    (∃ t, exec .decStart State.reset = .next t) :=
  ⟨⟨_, rfl⟩, ⟨by decide, 256#12, by decide⟩, ⟨_, rfl⟩, ⟨_, rfl⟩, ⟨_, rfl⟩, ⟨_, rfl⟩, _, rfl⟩

theorem witness_DecoderCountsAndReseeds :
    ∃ t, takeTokens .dec (openTokens [0x04#8, 0x10#8, 0x42#8]) State.reset = .next t ∧ t.dec.state ≠ .error :=
  ⟨_, rfl, by decide⟩

/-- The input "AAAA" packs 65, 256, 65 (V-ENC-5): its second codeword is the "code equals next index" case. -/
theorem witness_DecoderMirrorsEncoder :
    (packedOver (streamTokens [0x41#8, 0x41#8, 0x41#8, 0x41#8]) State.reset)[1]? =
      some (256#12, { entries := [(256, [0x41#8, 0x41#8])], next := 257#12, gen := 0#32 }) := rfl

/-! ### Witnesses: Dictionary, CodeTable and wire format -/

theorem witness_SeedLeavesBaseEntries :
    (255#12).toNat < 256 ∧ 256 ≤ (256#12).toNat ∧ ([] : Seq).length ≠ 1 ∧ [0x41#8, 0x41#8].length ≠ 1 := by decide

theorem witness_DictFindIsLookup :
    (genA 3839).Domain ∧ (genA 3839).Shape ∧ (4094#12).toNat < (genA 3839).next.toNat ∧
    (genA 3839).seq 4094#12 = some (List.replicate 3840 0x41#8) ∧
    ∀ k : Code, k.toNat < (genA 3839).next.toNat → (genA 3839).seq k ≠ some ([0x41#8] ++ [0x42#8]) :=
  ⟨(genA_props 3839 le_rfl).1, (genA_props 3839 le_rfl).2.1, by rw [(genA_props 3839 le_rfl).2.2.1]; decide, seq_genA_last,
    fun k _ => genA_miss 3839 le_rfl k _ _ (by simp) (by decide)⟩

theorem witness_InsertStoresAtNext :
    ((genA 3838).Domain ∧ (genA 3838).next.toNat < 4095) ∧ ((genA 3839).Domain ∧ (genA 3839).next.toNat = 4095) ∧
    ∃ k : Code, k ≠ (genA 3838).next :=
  ⟨⟨(genA_props 3838 (by omega)).1, by rw [(genA_props 3838 (by omega)).2.2.1]; decide⟩,
    ⟨(genA_props 3839 le_rfl).1, (genA_props 3839 le_rfl).2.2.1⟩, 0#12, by rw [next_genA _ (by omega)]; decide⟩

theorem witness_TableReadBelowNext :
    (genA 3839).Domain ∧ (4094#12).toNat < (genA 3839).next.toNat ∧ (255#12).toNat < (genA 3839).next.toNat ∧
    (255#12).toNat < 256 := by
  rw [(genA_props 3839 le_rfl).2.2.1]
  exact ⟨(genA_props 3839 le_rfl).1, by decide⟩

theorem witness_AdvanceReseedsAtLimit :
    (Generation.next { Generation.reset with next := 4094#12 }).toNat + 1 < 4096 ∧
    (Generation.next { Generation.reset with next := 4095#12 }).toNat + 1 = 4096 := by decide

theorem witness_EntryLengthBound :
    (withEnc (encRun 65#12 (genA 3839) false 0#4)).Inv ∧ 256 ≤ (256#12).toNat ∧ 256 ≤ (4094#12).toNat ∧
    (genA 3839).seq 4094#12 = some (List.replicate 3840 0x41#8) ∧ ∃ u, (genA 3839).seq 256#12 = some u :=
  ⟨encRun_inv 3839 le_rfl _ (by decide) _ _, by decide, by decide, seq_genA_last,
    Generation.Domain.seq_of_lt (genA_props 3839 le_rfl).1 (by rw [(genA_props 3839 le_rfl).2.2.1]; decide)⟩

/-- A miss at NEXT = 4095, in any generation that holds the match and not its extension. -/
theorem reseeding_miss_of (g : Generation) (h : g.Domain) (k : Code) (u : Seq) (hn : g.next.toNat = 4095)
    (hk : g.seq k = some u) (hm : ∀ j, g.seq j ≠ some (u ++ [0x41#8])) :
    ∃ t, takeToken .enc 0x041#10 (withEnc (encRun k g false 0#4)) = .next t ∧
      t.enc.dict.next = 256#12 ∧ t.enc.dict.gen = g.gen + 1#32 := by
  have hd : decode .enc 0x041#10 = .ok (.encData 0x41#8) := by decide
  rw [takeToken_ok _ _ _ _ hd, exec_encData_open _ _ (.inr rfl)]
  rcases Encoder.data_run 0x41#8 (encRun k g false 0#4) u rfl hk with ⟨j, hf, _⟩ | ⟨_, he⟩
  · exact absurd (Generation.find_some h hf).2 (hm j)
  · refine ⟨withEnc (Encoder.miss .insertThenReseed (u ++ [0x41#8]) 0x41#8 (encRun k g false 0#4)), ?_, ?_, ?_⟩
    · show State.commitEnc _ (Encoder.data .insertThenReseed 0x41#8 (encRun k g false 0#4)) = _
      rw [he]
      rfl
    · simp only [withEnc, Encoder.miss, Encoder.pack_dict]
      exact congrArg Generation.next (Generation.insert_last _ hn)
    · simp only [withEnc, Encoder.miss, Encoder.pack_dict]
      exact congrArg Generation.gen (Generation.insert_last _ hn)

/-- The reseeding miss of V-ENC-9: the match is entry 4094, NEXT is 4095. -/
theorem reseeding_miss :
    ∃ t, takeToken .enc 0x041#10 (withEnc (encRun 4094#12 (genA 3839) false 0#4)) = .next t ∧
      t.enc.dict.next = 256#12 ∧ t.enc.dict.gen = (genA 3839).gen + 1#32 :=
  reseeding_miss_of _ (genA_props 3839 le_rfl).1 _ _ (genA_props 3839 le_rfl).2.2.1 seq_genA_last fun k =>
    genA_absent 3839 le_rfl k _ (by rw [List.length_append, List.length_replicate]; exact Nat.lt_succ_self _)

theorem witness_CounterMovesByOne :
    ((withEnc (encRun 4094#12 (genA 3839) false 0#4)).Inv ∧
      ∃ t, takeToken .enc 0x041#10 (withEnc (encRun 4094#12 (genA 3839) false 0#4)) = .next t) ∧
    (State.reset.Inv ∧ ∃ t, takeToken .enc 0x041#10 State.reset = .next t) ∧
    ((withEnc (encRun 65#12 (genA 1) false 0#4)).Inv ∧
      ∃ t, takeToken .enc 0x042#10 (withEnc (encRun 65#12 (genA 1) false 0#4)) = .next t) ∧
    ((withDec (decRun [0x41#8] (genA 1) .byte2 0#8 0#4)).Inv ∧
      ∃ t, takeToken .dec 0x041#10 (withDec (decRun [0x41#8] (genA 1) .byte2 0#8 0#4)) = .next t) ∧
    (encError.streamState .enc = .error ∧ takeToken .enc 0x200#10 encError = .next State.reset) :=
  ⟨⟨encRun_inv 3839 le_rfl _ (by decide) _ _, let ⟨t, h, _⟩ := reseeding_miss; ⟨t, h⟩⟩,
    ⟨reset_inv, _, rfl⟩, ⟨encRun_inv 1 (by omega) _ (by decide) _ _, _, rfl⟩,
    ⟨decRun_inv 1 (by omega) _ (by decide) _ _ _, _, rfl⟩, rfl, rfl⟩

theorem witness_PackHalf : Encoder.reset.par = false ∧ (encRun 65#12 (genA 0) true 1#4).par = true := ⟨rfl, rfl⟩

theorem witness_UnpackHalf :
    Decoder.reset.phase = .byte0 ∧ (decRun [] (genA 0) .byte1 0#8 0#4).phase = .byte1 ∧
    (decRun [] (genA 0) .byte2 0#8 0#4).phase = .byte2 := ⟨rfl, rfl, rfl⟩

theorem witness_PackThenUnpack : Encoder.reset.par = false ∧ Decoder.reset.phase = .byte0 := ⟨rfl, rfl⟩

theorem witness_WireFormatRoundTrip : Decoder.reset.phase = .byte0 := rfl

/-- DATA and END on both engines, from states that meet the invariant. -/
theorem witness_OutputOnlyGrows :
    ((withEnc (encRun 65#12 (genA 1) true 0#4)).Inv ∧
      (∃ t, takeToken .enc 0x042#10 (withEnc (encRun 65#12 (genA 1) true 0#4)) = .next t) ∧
      ∃ t, takeToken .enc 0x100#10 (withEnc (encRun 65#12 (genA 1) true 0#4)) = .next t) ∧
    ((withDec (decRun [0x41#8] (genA 1) .byte2 0#8 0#4)).Inv ∧
      (∃ t, takeToken .dec 0x041#10 (withDec (decRun [0x41#8] (genA 1) .byte2 0#8 0#4)) = .next t) ∧
      ∃ t, takeToken .dec 0x100#10 (withDec (decRun [0x41#8] (genA 1) .byte2 0#8 0#4)) = .next t) :=
  ⟨⟨encRun_inv 1 (by omega) _ (by decide) _ _, ⟨_, rfl⟩, _, rfl⟩, decRun_inv 1 (by omega) _ (by decide) _ _ _, ⟨_, rfl⟩, _, rfl⟩

/-! ### Witnesses: invariants and the register port -/

theorem witness_StepKeepsInvariants :
    State.Inv { (withEnc (encRun 4094#12 (genA 3839) false 0#4)) with encIn := [0x041#10], sched := [.enc] } :=
  ⟨(encRun_inv 3839 (by omega) 4094#12 (by decide) false 0#4).enc, reset_inv.dec⟩

theorem witness_StepKeepsCanonicalStorage :
    Memory.wf State.reset.enc.dict.entries = true ∧ Memory.wf State.reset.dec.table.entries = true ∧
    (∃ t, step (State.reset.withFetchWord 16 0x041) = .next t) ∧ Memory.wf genAB.entries = true ∧
    (∃ t, step ((withEnc (encRun 66#12 genAB false 0#4)).withFetchWord 16 0x041) = .next t) :=
  ⟨rfl, rfl, ⟨_, rfl⟩, rfl, _, rfl⟩

theorem witness_RegisterPort :
    basesWf { enc := 0, dec := 8 } = true ∧ (7 < 8 ∧ ¬(8 = 32 ∧ (7 = 0 ∨ 7 = 4))) ∧ (4 < 8 ∧ ¬(16 = 32 ∧ (4 = 0 ∨ 4 = 4))) := by
  decide

end Sys2Proof.Machine.Tests
end

section
/-! SUPPORT. The encode engine over a whole stream: what START, DATA and END do to an engine that holds a match, which
codewords are packed on the way, and that they go out in the wire format (R142, R143, R75). -/

namespace Sys2Proof.Machine

/-! ### Taking tokens one after the other -/

theorem takeTokens_cons {e : Engine} {t : Token} {s s' : State} (h : takeToken e t s = .next s') (ts : List Token) :
    takeTokens e (t :: ts) s = takeTokens e ts s' := by
  rw [takeTokens, h]

theorem takeTokens_append {e : Engine} {ts : List Token} {s s' : State} (h : takeTokens e ts s = .next s')
    (us : List Token) : takeTokens e (ts ++ us) s = takeTokens e us s' := by
  induction ts generalizing s with
  | nil => cases h; rfl
  | cons t ts ih =>
    cases ht : takeToken e t s with
    | next s₁ =>
      rw [takeTokens_cons ht] at h
      rw [List.cons_append, takeTokens_cons ht, ih h]
    | fault f => rw [takeTokens, ht] at h; cases h
    | refused r => rw [takeTokens, ht] at h; cases h

theorem codesOver_cons {t : Token} {s s' : State} (h : takeToken .enc t s = .next s') (ts : List Token) :
    codesOver (t :: ts) s = (s.packed t).toList ++ codesOver ts s' := by
  unfold codesOver
  rw [packedOver, h]
  cases hp : s.packed t <;> simp

/-! ### Tokens that open and close a stream -/

theorem takeToken_start (e : Engine) (s : State) : takeToken e 0x200#10 s = exec (startOf e) s :=
  takeToken_ok e _ s _ (by cases e <;> decide)

theorem takeToken_finish (e : Engine) (s : State) : takeToken e 0x100#10 s = exec (endOf e) s :=
  takeToken_ok e _ s _ (by cases e <;> decide)

theorem takeToken_encStart (s : State) : takeToken .enc 0x200#10 s = .next { s with enc := s.enc.start } :=
  takeToken_start .enc s

theorem takeToken_decStart (s : State) : takeToken .dec 0x200#10 s = .next { s with dec := s.dec.start } :=
  takeToken_start .dec s

theorem takeToken_encEnd {s : State} (h : s.enc.state = .empty ∨ s.enc.state = .run) :
    takeToken .enc 0x100#10 s = .next { s with enc := s.enc.finish } :=
  (takeToken_finish .enc s).trans (exec_encEnd_open s h)

theorem takeToken_decEnd {s : State} (h : s.dec.state = .empty ∨ s.dec.state = .run) :
    takeToken .dec 0x100#10 s = .next { s with dec := s.dec.finish } :=
  (takeToken_finish .dec s).trans (exec_decEnd_open s h)

/-- A token packs nothing on an engine that holds no match. -/
theorem State.packed_of_not_run {s : State} (h : s.enc.state ≠ .run) (t : Token) : s.packed t = none := by
  unfold State.packed
  cases hs : s.enc.state with
  | run => exact absurd hs h
  | empty | done | error => rfl

/-- START packs nothing. -/
theorem State.packed_start (s : State) : s.packed 0x200#10 = none := by
  have hd : decode .enc 0x200#10 = .ok .encStart := by decide
  unfold State.packed
  rw [hd]
  cases s.enc.state <;> rfl

/-- END packs the match. -/
theorem State.packed_end {s : State} (h : s.enc.state = .run) : s.packed 0x100#10 = some s.enc.s := by
  have hd : decode .enc 0x100#10 = .ok .encEnd := by decide
  unfold State.packed
  rw [h, hd]

/-- DATA packs the match when the search for the extended match finds nothing. -/
theorem State.packed_data {s : State} {u : Seq} (hrun : s.enc.state = .run) (hheld : s.enc.dict.seq s.enc.s = some u)
    (c : Byte) : s.packed (tokenOf 0b00#2 c) =
      (s.enc.dict.find .insertThenReseed (u ++ [c])).elim (some s.enc.s) fun _ => none := by
  simp only [State.packed, hrun, decode_data, dataOf, hheld, reseedReading]
  cases s.enc.dict.find .insertThenReseed (u ++ [c]) <;> rfl

/-! ### The wire format, from the middle of a group -/

/-- What is still to go out for the codewords `ks`: from a group boundary, or (`par`) behind a codeword A whose byte0 is
out and whose low nibble waits. -/
def wireFrom : Bool → Nibble → List Code → List Byte
  | false, _, [] => []
  | true, n, [] => [joinNibbles n 0#4]
  | false, _, a :: ks => codeHigh8 a :: wireFrom true (codeLow4 a) ks
  | true, n, b :: ks => joinNibbles n (codeHigh4 b) :: codeLow8 b :: wireFrom false n ks

theorem wireFrom_boundary : ∀ (ks : List Code) (n : Nibble), wireFrom false n ks = wirePack ks
  | [], _ => rfl
  | [_], _ => rfl
  | a :: b :: ks, n => by simp [wireFrom, wirePack, wireFrom_boundary ks]

/-- Packing a codeword puts out its share of the wire bytes. -/
theorem Encoder.pack_out (k : Code) (ks : List Code) (e : Encoder) :
    (e.pack k).out ++ (wireFrom (e.pack k).par (e.pack k).nib ks).map .byte =
      e.out ++ (wireFrom e.par e.nib (k :: ks)).map .byte := by
  unfold Encoder.pack
  cases hp : e.par <;> simp [Encoder.packA, Encoder.packB, wireFrom]

/-- The flush puts out what is left of the last group. -/
theorem Encoder.packFlush_out (e : Encoder) : e.packFlush.out = e.out ++ (wireFrom e.par e.nib []).map .byte := by
  unfold Encoder.packFlush
  cases hp : e.par <;> simp [wireFrom]

/-- END in RUN packs the match, flushes, and ends the stream. -/
theorem Encoder.finish_out_run {e : Encoder} (h : e.state = .run) :
    e.finish.out = e.out ++ (wireFrom e.par e.nib [e.s]).map .byte ++ [.eos] := by
  rw [← Encoder.pack_out, ← Encoder.packFlush_out]
  simp [Encoder.finish, h]

/-! ### An engine that holds a match -/

/-- The engine is in RUN on a well-formed generation and its match is the entry `u`. -/
structure Encoder.Matches (e : Encoder) (u : Seq) : Prop where
  run    : e.state = .run
  domain : e.dict.Domain
  shape  : e.dict.Shape
  held   : e.dict.seq e.s = some u

/-- What DATA does to an engine that holds a match: on a hit the match grows by the byte and nothing is packed; on a miss
its code is packed and the match restarts with the byte (R142). -/
theorem Encoder.Matches.data_cases {s : State} {u : Seq} (h : s.enc.Matches u) (c : Byte) :
    (∃ k, takeToken .enc (tokenOf 0b00#2 c) s = .next { s with enc := { s.enc with s := k } } ∧
      s.packed (tokenOf 0b00#2 c) = none ∧ Encoder.Matches { s.enc with s := k } (u ++ [c])) ∨
    (takeToken .enc (tokenOf 0b00#2 c) s =
        .next { s with enc := s.enc.miss .insertThenReseed (u ++ [c]) c } ∧
      s.packed (tokenOf 0b00#2 c) = some s.enc.s ∧
      (s.enc.miss .insertThenReseed (u ++ [c]) c).Matches [c]) := by
  obtain ⟨hrun, hdom, hshape, hheld⟩ := h
  have htake : takeToken .enc (tokenOf 0b00#2 c) s = s.commitEnc (s.enc.data .insertThenReseed c) :=
    (takeToken_ok .enc _ s _ (decode_data .enc c)).trans (exec_encData_open s c (.inr hrun))
  rcases Encoder.data_run c s.enc u hrun hheld with ⟨k, hfind, hdata⟩ | ⟨hfind, hdata⟩
  · refine .inl ⟨k, by rw [htake, hdata]; rfl, by rw [State.packed_data hrun hheld, hfind]; rfl, hrun, hdom, hshape, ?_⟩
    exact (Generation.find_some hdom hfind).2
  · refine .inr ⟨by rw [htake, hdata]; rfl, by rw [State.packed_data hrun hheld, hfind]; rfl, ?_, ?_, ?_, ?_⟩
    · simpa [Encoder.miss] using hrun
    · simpa [Encoder.miss] using Generation.insert_domain hdom (u ++ [c])
    · simpa [Encoder.miss] using
        Generation.insert_shape hdom hshape s.enc.s u c hheld (Generation.find_none hdom hfind)
    · exact Generation.seq_baseCode _ c

/-- The first byte of a stream starts the match. -/
theorem takeToken_firstData (s : State) (c : Byte) (h : s.enc.state = .empty) :
    takeToken .enc (tokenOf 0b00#2 c) s = .next { s with enc := { s.enc with s := baseCode c, state := .run } } := by
  rw [takeToken_ok .enc _ s _ (decode_data .enc c)]
  refine (exec_encData_open s c (.inl h)).trans ?_
  rw [Encoder.data_empty _ c s.enc h]
  rfl

/-- The rest of a stream, taken while the engine holds a match, puts out exactly the codewords it packs, in the wire
format, and ends it. -/
theorem Encoder.Matches.takeTokens_rest {s : State} {u : Seq} (h : s.enc.Matches u) (bs : List Byte) :
    ∃ t, takeTokens .enc (bs.map (tokenOf 0b00#2) ++ [0x100#10]) s = .next t ∧ t.enc.state = .done ∧
      t.enc.out = s.enc.out ++
        (wireFrom s.enc.par s.enc.nib (codesOver (bs.map (tokenOf 0b00#2) ++ [0x100#10]) s)).map .byte ++ [.eos] := by
  induction bs generalizing s u with
  | nil =>
    have htake := takeToken_encEnd (.inr h.run)
    refine ⟨_, takeTokens_cons htake [], rfl, ?_⟩
    rw [List.map_nil, List.nil_append, codesOver_cons htake, State.packed_end h.run]
    exact Encoder.finish_out_run h.run
  | cons c bs ih =>
    rcases h.data_cases c with ⟨k, htake, hpacked, hm⟩ | ⟨htake, hpacked, hm⟩
    · obtain ⟨t, ht, hdone, hout⟩ := ih (s := { s with enc := { s.enc with s := k } }) hm
      refine ⟨t, (takeTokens_cons htake _).trans ht, hdone, ?_⟩
      rw [List.map_cons, List.cons_append, codesOver_cons htake, hpacked]
      exact hout
    · obtain ⟨t, ht, hdone, hout⟩ :=
        ih (s := { s with enc := s.enc.miss .insertThenReseed (u ++ [c]) c }) hm
      refine ⟨t, (takeTokens_cons htake _).trans ht, hdone, ?_⟩
      rw [List.map_cons, List.cons_append, codesOver_cons htake, hpacked]
      exact hout.trans (congrArg (· ++ [OutItem.eos]) (Encoder.pack_out s.enc.s _ s.enc))

/-- START opens a stream and packs nothing. -/
theorem codesOver_start (ts : List Token) (s : State) :
    codesOver (0x200#10 :: ts) s = codesOver ts { s with enc := s.enc.start } := by
  rw [codesOver_cons (takeToken_encStart s), State.packed_start]
  rfl

/-- After the first byte the engine holds it as its match. -/
theorem Encoder.matches_first (e : Encoder) (c : Byte) :
    Encoder.Matches { e.start with s := baseCode c, state := .run } [c] :=
  ⟨rfl, Generation.domain_empty _, Generation.shape_empty _ _, Generation.seq_baseCode _ c⟩

theorem codesOver_firstData {s : State} {c : Byte} (h : s.enc.state = .empty) (ts : List Token) :
    codesOver (tokenOf 0b00#2 c :: ts) s =
      codesOver ts { s with enc := { s.enc with s := baseCode c, state := .run } } := by
  rw [codesOver_cons (takeToken_firstData s c h), State.packed_of_not_run (by simp [h])]
  rfl

/-- An empty stream packs nothing. -/
theorem codesOver_emptyStream (s : State) : codesOver [0x100#10] { s with enc := s.enc.start } = [] := by
  have htake : takeToken .enc 0x100#10 { s with enc := s.enc.start } = _ := takeToken_encEnd (.inl rfl)
  rw [codesOver_cons htake, State.packed_of_not_run (by simp [Encoder.start])]
  rfl

/-- A whole stream on the encode engine, from any state: the packed codewords go out in the wire format, then Eos. -/
theorem takeTokens_encStream (s : State) (bs : List Byte) :
    ∃ t, takeTokens .enc (streamTokens bs) s = .next t ∧ t.enc.state = .done ∧
      t.enc.out = s.enc.out ++ (wirePack (codesOver (streamTokens bs) s)).map .byte ++ [.eos] := by
  unfold streamTokens
  rw [takeTokens_cons (takeToken_encStart s), codesOver_start]
  cases bs with
  | nil =>
    have htake : takeToken .enc 0x100#10 { s with enc := s.enc.start } = _ := takeToken_encEnd (.inl rfl)
    refine ⟨_, takeTokens_cons htake [], rfl, ?_⟩
    rw [List.map_nil, List.nil_append, codesOver_emptyStream]
    simp [wirePack, Encoder.finish, Encoder.start, Encoder.packFlush]
  | cons c bs =>
    have hfirst := takeToken_firstData { s with enc := s.enc.start } c rfl
    rw [List.map_cons, List.cons_append, takeTokens_cons hfirst, codesOver_firstData rfl]
    obtain ⟨t, ht, hdone, hout⟩ := Encoder.Matches.takeTokens_rest
      (s := { s with enc := { s.enc.start with s := baseCode c, state := .run } }) (s.enc.matches_first c) bs
    refine ⟨t, ht, hdone, ?_⟩
    rw [← wireFrom_boundary _ 0#4]
    exact hout

end Sys2Proof.Machine
end

section
/-! SUPPORT. The decode engine over the bytes of a stream: the unpack half completes the codewords of the wire format
(R76, R78), and taking the bytes is the codeword step over those codewords. -/

namespace Sys2Proof.Machine

/-! ### The unpack half -/

/-- Which codewords are completed depends on the unpack half alone. -/
theorem unpackedOver_congr (bs : List Byte) {d d' : Decoder} (hp : d'.phase = d.phase) (hh : d'.h0 = d.h0)
    (hn : d'.nib = d.nib) : unpackedOver bs d' = unpackedOver bs d := by
  induction bs generalizing d d' with
  | nil => rfl
  | cons b bs ih =>
    cases h : d.phase with
    | byte0 =>
      simp only [unpackedOver, Decoder.unpack, hp, h]
      exact ih rfl rfl hn
    | byte1 =>
      simp only [unpackedOver, Decoder.unpack, hp, h, hh]
      exact congrArg _ (ih rfl rfl rfl)
    | byte2 =>
      simp only [unpackedOver, Decoder.unpack, hp, h, hn]
      exact congrArg _ (ih rfl hh rfl)

/-- The unpack half, from a group boundary, completes the codewords that were packed. -/
theorem unpackedOver_wirePack : ∀ (ks : List Code) (d : Decoder), d.phase = .byte0 → unpackedOver (wirePack ks) d = ks
  | [], _, _ => rfl
  | [a], d, h => by simp [wirePack, unpackedOver, Decoder.unpack, h, codeA_of_packed]
  | a :: b :: ks, d, h => by
    simp [wirePack, unpackedOver, Decoder.unpack, h, codeA_of_packed, codeB_of_packed, unpackedOver_wirePack ks]

/-! ### The codeword step does not read the unpack half -/

/-- The decode engine `d` with the unpack half of `x`. -/
def Decoder.withUnpack (d x : Decoder) : Decoder := { d with phase := x.phase, h0 := x.h0, nib := x.nib }

@[simp] theorem Decoder.withUnpack_state (d x : Decoder) : (d.withUnpack x).state = d.state := rfl
@[simp] theorem Decoder.withUnpack_table (d x : Decoder) : (d.withUnpack x).table = d.table := rfl
@[simp] theorem Decoder.withUnpack_prev (d x : Decoder) : (d.withUnpack x).prev = d.prev := rfl

/-- What an operation answers, with a completed state changed by `f`. -/
def Result.map {σ : Type} (f : σ → σ) : Result σ → Result σ
  | .ok x => .ok (f x)
  | .raise c => .raise c
  | .stop f => .stop f
  | .refuse r => .refuse r

/-- Taking a byte in changes the unpack half alone, and completes a codeword or none. -/
theorem Decoder.unpack_eq (b : Byte) (d : Decoder) :
    ∃ x, d.unpack b = (d.withUnpack x, none) ∨ ∃ k, d.unpack b = (d.withUnpack x, some k) := by
  rcases d.unpack_cases b with ⟨_, h⟩ | ⟨_, h⟩ | ⟨_, h⟩
  · exact ⟨{ d with h0 := b, phase := .byte1 }, .inl h⟩
  · exact ⟨{ d with nib := byteLow4 b, phase := .byte2 }, .inr ⟨_, h⟩⟩
  · exact ⟨{ d with phase := .byte0 }, .inr ⟨_, h⟩⟩

theorem Decoder.putSeq_withUnpack (r : ReseedReading) (w e : Seq) (d x : Decoder) :
    (d.withUnpack x).putSeq r w e = (d.putSeq r w e).map (·.withUnpack x) := by
  unfold Decoder.putSeq
  split <;> rfl

theorem Decoder.codeAtNext_withUnpack (r : ReseedReading) (d x : Decoder) :
    (d.withUnpack x).codeAtNext r = (d.codeAtNext r).map (·.withUnpack x) := by
  unfold Decoder.codeAtNext
  rw [Decoder.withUnpack_prev]
  cases d.prev with
  | nil => rfl
  | cons y rest => exact d.putSeq_withUnpack r _ _ x

theorem Decoder.codeInTable_withUnpack (r : ReseedReading) (k : Code) (d x : Decoder) :
    (d.withUnpack x).codeInTable r k = (d.codeInTable r k).map (·.withUnpack x) := by
  unfold Decoder.codeInTable
  rw [Decoder.withUnpack_table, Decoder.withUnpack_prev]
  split
  · rfl
  · rfl
  · exact d.putSeq_withUnpack r _ _ x

theorem Decoder.firstCode_withUnpack (k : Code) (d x : Decoder) :
    (d.withUnpack x).firstCode k = (d.firstCode k).map (·.withUnpack x) := by
  unfold Decoder.firstCode
  split <;> rfl

/-- The codeword step neither reads nor writes the unpack half. -/
theorem Decoder.decodeCode_withUnpack (r : ReseedReading) (p : AboveNextPolicy) (k : Code) (d x : Decoder) :
    (d.withUnpack x).decodeCode r p k = (d.decodeCode r p k).map (·.withUnpack x) := by
  have running : (if k.toNat < d.table.bound r then (d.withUnpack x).codeInTable r k
        else if p = .refuse ∧ d.table.bound r < k.toNat then .refuse (.aboveNext k)
        else (d.withUnpack x).codeAtNext r) =
      (if k.toNat < d.table.bound r then d.codeInTable r k
        else if p = .refuse ∧ d.table.bound r < k.toNat then .refuse (.aboveNext k)
        else d.codeAtNext r).map (·.withUnpack x) := by
    split
    · exact d.codeInTable_withUnpack r k x
    · split
      · rfl
      · exact d.codeAtNext_withUnpack r x
  unfold Decoder.decodeCode
  rw [Decoder.withUnpack_state, Decoder.withUnpack_table]
  cases d.state with
  | empty => exact d.firstCode_withUnpack k x
  | run | done | error => exact running

theorem decodeOver_cons {k : Code} {d d₁ : Decoder} (h : d.decodeCode .insertThenReseed .literal k = .ok d₁)
    (ks : List Code) : decodeOver (k :: ks) d = decodeOver ks d₁ := by
  rw [decodeOver, reseedReading, aboveNextPolicy, h]

/-- Codewords that decode do so one by one. -/
theorem decodeOver_cons_ok {k : Code} {ks : List Code} {d d' : Decoder} (h : decodeOver (k :: ks) d = .ok d') :
    ∃ d₁, d.decodeCode .insertThenReseed .literal k = .ok d₁ ∧ decodeOver ks d₁ = .ok d' := by
  rw [decodeOver, reseedReading, aboveNextPolicy] at h
  cases hd : d.decodeCode .insertThenReseed .literal k with
  | ok d₁ => exact ⟨d₁, rfl, by rwa [hd] at h⟩
  | raise _ | stop _ | refuse _ => rw [hd] at h; cases h

theorem decodeOver_withUnpack {ks : List Code} {d d' : Decoder} (h : decodeOver ks d = .ok d') (x : Decoder) :
    decodeOver ks (d.withUnpack x) = .ok (d'.withUnpack x) := by
  induction ks generalizing d with
  | nil => cases h; rfl
  | cons k ks ih =>
    obtain ⟨d₁, hd, hrest⟩ := decodeOver_cons_ok h
    have hd' : (d.withUnpack x).decodeCode .insertThenReseed .literal k = .ok (d₁.withUnpack x) := by
      rw [Decoder.decodeCode_withUnpack, hd]; rfl
    rw [decodeOver_cons hd', ih hrest]

/-! ### Taking the bytes of a stream -/

theorem Decoder.putSeq_state {r : ReseedReading} {w e : Seq} {d d' : Decoder} (h : d.putSeq r w e = .ok d') :
    d'.state = d.state := by
  rcases d.putSeq_cases r w e with ⟨_, hput⟩ | ⟨_, hput⟩ <;> rw [hput] at h <;> cases h
  rfl

/-- A codeword step that completes in an open stream leaves the engine in RUN. -/
theorem Decoder.decodeCode_state {k : Code} {d d' : Decoder} (ho : d.state = .empty ∨ d.state = .run)
    (h : d.decodeCode .insertThenReseed .literal k = .ok d') : d'.state = .run := by
  rcases ho with hs | hs
  · rw [Decoder.decodeCode_empty _ _ k d hs, Decoder.firstCode] at h
    split at h <;> cases h
    rfl
  · rw [Decoder.decodeCode_run k d hs] at h
    refine Eq.trans ?_ hs
    split at h
    · unfold Decoder.codeInTable at h
      split at h
      · cases h
      · cases h
      · exact Decoder.putSeq_state h
    · unfold Decoder.codeAtNext at h
      split at h
      · cases h
      · exact Decoder.putSeq_state h

/-- DATA on an open stream runs the codeword parser. -/
theorem takeToken_decData {s : State} (ho : s.dec.state = .empty ∨ s.dec.state = .run) (b : Byte) :
    takeToken .dec (tokenOf 0b00#2 b) s = s.commitDec (s.dec.data .insertThenReseed .literal b) :=
  (takeToken_ok .dec _ s _ (decode_data .dec b)).trans (exec_decData_open s b ho)

/-- A byte that completes no codeword is taken in. -/
theorem takeToken_decData_held {s : State} {b : Byte} {x : Decoder}
    (ho : s.dec.state = .empty ∨ s.dec.state = .run) (hu : s.dec.unpack b = (s.dec.withUnpack x, none)) :
    takeToken .dec (tokenOf 0b00#2 b) s = .next { s with dec := s.dec.withUnpack x } := by
  rw [takeToken_decData ho, Decoder.data, hu]
  rfl

/-- A byte that completes a codeword is taken in and the codeword decoded. -/
theorem takeToken_decData_code {s : State} {b : Byte} {k : Code} {x d : Decoder}
    (ho : s.dec.state = .empty ∨ s.dec.state = .run) (hu : s.dec.unpack b = (s.dec.withUnpack x, some k))
    (hd : s.dec.decodeCode .insertThenReseed .literal k = .ok d) :
    takeToken .dec (tokenOf 0b00#2 b) s = .next { s with dec := d.withUnpack x } := by
  rw [takeToken_decData ho, Decoder.data, hu]
  dsimp only
  rw [Decoder.decodeCode_withUnpack, hd]
  rfl

/-- Taking bytes as DATA tokens is the codeword step over the codewords they complete, up to the unpack half. -/
theorem takeTokens_decData (bs : List Byte) {s : State} {d : Decoder}
    (ho : s.dec.state = .empty ∨ s.dec.state = .run) (h : decodeOver (unpackedOver bs s.dec) s.dec = .ok d) :
    (d.state = .empty ∨ d.state = .run) ∧
      ∃ x, takeTokens .dec (bs.map (tokenOf 0b00#2)) s = .next { s with dec := d.withUnpack x } := by
  induction bs generalizing s d with
  | nil => cases h; exact ⟨ho, s.dec, rfl⟩
  | cons b bs ih =>
    obtain ⟨x, hu | ⟨k, hu⟩⟩ := s.dec.unpack_eq b
    · rw [unpackedOver, hu] at h
      obtain ⟨hopen, y, hrest⟩ :=
        ih (s := { s with dec := s.dec.withUnpack x }) (d := d.withUnpack x) ho (decodeOver_withUnpack h x)
      exact ⟨hopen, y, (takeTokens_cons (takeToken_decData_held ho hu) _).trans hrest⟩
    · rw [unpackedOver, hu] at h
      obtain ⟨d₁, hd, hks⟩ := decodeOver_cons_ok h
      have hunpacked : unpackedOver bs (d₁.withUnpack x) = unpackedOver bs (s.dec.withUnpack x) :=
        unpackedOver_congr bs rfl rfl rfl
      have hrun : d₁.state = .run := Decoder.decodeCode_state ho hd
      obtain ⟨hopen, y, hrest⟩ := ih (s := { s with dec := d₁.withUnpack x }) (d := d.withUnpack x)
        (.inr hrun) (by rw [hunpacked]; exact decodeOver_withUnpack hks x)
      exact ⟨hopen, y, (takeTokens_cons (takeToken_decData_code ho hu hd) _).trans hrest⟩

/-- A whole stream on the decode engine whose bytes hold codewords `ks` that decode: what they put out, then Eos. -/
theorem takeTokens_decStream {s : State} {ks : List Code} {d : Decoder} (h : decodeOver ks s.dec.start = .ok d) :
    ∃ t, takeTokens .dec (streamTokens (wirePack ks)) s = .next t ∧ t.dec.out = d.out ++ [.eos] ∧
      t.dec.state = .done := by
  obtain ⟨hopen, x, hbytes⟩ := takeTokens_decData (wirePack ks) (s := { s with dec := s.dec.start }) (d := d)
    (.inl rfl) (by rw [unpackedOver_wirePack ks _ rfl]; exact h)
  have hend := takeToken_decEnd (s := { s with dec := d.withUnpack x }) hopen
  refine ⟨{ s with dec := (d.withUnpack x).finish }, ?_, rfl, rfl⟩
  rw [streamTokens, takeTokens_cons (takeToken_decStart s), takeTokens_append hbytes, takeTokens_cons hend]
  rfl

end Sys2Proof.Machine
end

section
/-! SUPPORT. R14 and R166: the decode engine stays one insertion behind the encode engine, and the next codeword that the
encode engine packs is the one that lets it catch up. -/

namespace Sys2Proof.Machine

/-- The decode engine `d` is one codeword behind the generation `g`: any codeword whose entry in `g` begins with `c` puts
that entry out, holds it as PREV, and makes the table `g`. -/
def Decoder.Follows (d : Decoder) (g : Generation) (c : Byte) : Prop :=
  ∀ (k : Code) (u : Seq), g.seq k = some (c :: u) →
    d.decodeCode .insertThenReseed .literal k =
      .ok { d.emit ((c :: u).map .byte) with table := g, prev := c :: u, state := .run }

/-- At the start of a stream the decode engine follows the seeded generation: a base code comes first (R168). -/
theorem Decoder.start_follows (d : Decoder) (c : Byte) : d.start.Follows Generation.reset c := by
  intro k u hk
  rw [Generation.reset, Generation.seq_empty] at hk
  split at hk
  · rename_i hbase
    obtain ⟨rfl, rfl⟩ := List.cons.inj (Option.some.inj hk)
    rw [Decoder.decodeCode_empty _ _ k _ rfl, Decoder.firstCode, if_neg (Nat.not_le.2 hbase)]
    rfl
  · cases hk

/-- What a code names after the insertion of `p`: what it named before, or `p` as the new entry at NEXT. A reseeding
insertion leaves only the former (R105). -/
theorem Generation.seq_insert_cases {g : Generation} (h : g.Domain) {p u : Seq} {k : Code}
    (hk : (g.insert .insertThenReseed p).seq k = some u) :
    (k.toNat < g.next.toNat ∧ g.seq k = some u) ∨ (k = g.next ∧ u = p) := by
  rcases Generation.insert_cases h p with ⟨hlt, _⟩ | ⟨hlast, he⟩
  · rw [Generation.seq_insert_lt h p hlt] at hk
    split at hk
    · exact .inr ⟨‹_›, (Option.some.inj hk).symm⟩
    · exact .inl ⟨Generation.Domain.lt_of_seq h hk, hk⟩
  · rw [he, Generation.seq_empty] at hk
    split at hk
    · rename_i hbase
      exact .inl ⟨lt_of_lt_of_le hbase h.1, (g.seq_base k hbase).trans hk⟩
    · cases hk

/-- An entry has at most 3840 bytes: code 256+j has at most j+2, and 4095 is never held (R7, R107). -/
theorem Generation.seq_length_le {g : Generation} (h : g.Domain) (hs : g.Shape) {k : Code} {u : Seq}
    (hk : g.seq k = some u) : u.length ≤ 3840 := by
  obtain ⟨_, hdyn, hbase⟩ := Generation.shape_length hs k.toNat k u le_rfl hk
  have hlt := Generation.Domain.lt_of_seq h hk
  have := g.next.isLt
  rcases Nat.lt_or_ge k.toNat 256 with hb | hb
  · have := hbase hb; omega
  · have := hdyn hb; omega

/-- A codeword step in RUN on a code whose entry, once PREV and `c` are inserted, begins with `c`: that insertion is made
and the entry put out, whether the table holds the code already or it is the one at NEXT (R165, R166). -/
theorem Decoder.decodeCode_eq_putSeq {d : Decoder} (hrun : d.state = .run) (hdom : d.table.Domain)
    (hprev : d.prev ≠ []) {k : Code} {c : Byte} {u : Seq}
    (hk : (d.table.insert .insertThenReseed (d.prev ++ [c])).seq k = some (c :: u)) :
    d.decodeCode .insertThenReseed .literal k = d.putSeq .insertThenReseed (d.prev ++ [c]) (c :: u) := by
  rw [Decoder.decodeCode_run k d hrun]
  rcases Generation.seq_insert_cases hdom hk with ⟨hlt, hold⟩ | ⟨rfl, hnew⟩
  · rw [if_pos hlt, Decoder.codeInTable, hold]
  · rw [if_neg (Nat.lt_irrefl _), Decoder.codeAtNext]
    cases hp : d.prev with
    | nil => exact absurd hp hprev
    | cons x rest =>
      rw [hp, List.cons_append] at hnew
      obtain ⟨rfl, rfl⟩ := List.cons.inj hnew
      rfl

/-- When the encode engine inserts PREV and `c` and restarts its match with `c`, the decode engine follows (R166). -/
theorem Decoder.follows_insert {d : Decoder} (hrun : d.state = .run) (hdom : d.table.Domain) (hprev : d.prev ≠ [])
    (hlen : d.prev.length < maxSeqLen) (c : Byte) :
    d.Follows (d.table.insert .insertThenReseed (d.prev ++ [c])) c := by
  intro k u hk
  rw [Decoder.decodeCode_eq_putSeq hrun hdom hprev hk, Decoder.putSeq, if_neg (by simpa using hlen), ← hrun]
  rfl

theorem Encoder.miss_dict (r : ReseedReading) (u : Seq) (c : Byte) (e : Encoder) :
    (e.miss r u c).dict = e.dict.insert r u := by
  rw [Encoder.miss, Encoder.pack_dict]

/-- The codewords packed from a match `c :: u` and the bytes `bs` to the end of the stream decode, on an engine that
follows, to exactly the match and those bytes. -/
theorem Encoder.Matches.decodeOver_rest {s : State} {c : Byte} {u : Seq} (h : s.enc.Matches (c :: u)) {d : Decoder}
    (hf : d.Follows s.enc.dict c) (bs : List Byte) :
    ∃ d', decodeOver (codesOver (bs.map (tokenOf 0b00#2) ++ [0x100#10]) s) d = .ok d' ∧
      d'.out = d.out ++ (c :: u ++ bs).map .byte := by
  induction bs generalizing s c u d with
  | nil =>
    rw [List.map_nil, List.nil_append, codesOver_cons (takeToken_encEnd (.inr h.run)), State.packed_end h.run]
    exact ⟨_, decodeOver_cons (hf _ _ h.held) [], by simp⟩
  | cons b bs ih =>
    rw [List.map_cons, List.cons_append]
    rcases h.data_cases b with ⟨k, htake, hpacked, hm⟩ | ⟨htake, hpacked, hm⟩
    · obtain ⟨d', hd', hout⟩ := ih (s := { s with enc := { s.enc with s := k } }) hm hf
      exact ⟨d', by rw [codesOver_cons htake, hpacked]; exact hd', by simpa using hout⟩
    · have hlen : (c :: u).length < maxSeqLen :=
        Nat.lt_succ_of_le (Generation.seq_length_le h.domain h.shape h.held)
      have hf' := Decoder.follows_insert
        (d := { d.emit ((c :: u).map .byte) with table := s.enc.dict, prev := c :: u, state := .run })
        rfl h.domain (List.cons_ne_nil c u) hlen b
      obtain ⟨d', hd', hout⟩ :=
        ih (s := { s with enc := s.enc.miss .insertThenReseed (c :: u ++ [b]) b }) hm
          (by rw [Encoder.miss_dict]; exact hf')
      refine ⟨d', ?_, by simpa using hout⟩
      rw [codesOver_cons htake, hpacked]
      exact (decodeOver_cons (hf _ _ h.held) _).trans hd'

/-- The codewords of a whole stream decode, from a fresh stream, to its bytes (R14, R166). -/
theorem decodeOver_codesOver (s : State) (bs : List Byte) (d : Decoder) :
    ∃ d', decodeOver (codesOver (streamTokens bs) s) d.start = .ok d' ∧ d'.out = d.out ++ bs.map .byte := by
  rw [streamTokens, codesOver_start]
  cases bs with
  | nil =>
    rw [List.map_nil, List.nil_append, codesOver_emptyStream]
    exact ⟨d.start, rfl, (List.append_nil _).symm⟩
  | cons c bs =>
    rw [List.map_cons, List.cons_append, codesOver_firstData rfl]
    exact Encoder.Matches.decodeOver_rest (s := { s with enc := { s.enc.start with s := baseCode c, state := .run } })
      (s.enc.matches_first c) (d.start_follows c) bs

/-- Settles O38: the encode engine's bytes are its packed codewords in the wire format, and those codewords decode to the
input because the decode engine follows the encode engine one insertion behind. -/
theorem roundTrip : Obligations.RoundTrip := by
  intro s s2 bs
  obtain ⟨t, htake, _, hout⟩ := takeTokens_encStream s bs
  obtain ⟨d, hdecode, hbytes⟩ := decodeOver_codesOver s bs s2.dec
  obtain ⟨t2, htake2, hout2, hdone⟩ := takeTokens_decStream hdecode
  exact ⟨t, _, htake, hout, t2, htake2, by rw [hout2, hbytes], hdone⟩

/-- Settles O44, from the shape of R107 and the bound on NEXT. -/
theorem entryLengthBound : Obligations.EntryLengthBound := by
  intro s k u hinv hk hu
  obtain ⟨_, hdyn, _⟩ := Generation.shape_length hinv.enc.shape k.toNat k u le_rfl hu
  obtain ⟨hlo, hhi⟩ := hdyn hk
  exact ⟨hlo, by omega, Generation.seq_length_le hinv.enc.domain hinv.enc.shape hu⟩

end Sys2Proof.Machine
end

section
/-! SUPPORT. Error entries are precise (R202, R203), and a step is the taking of the oldest token (R52, R60). -/

namespace Sys2Proof.Machine

/-! ### The other engine -/

/-- A token of the encode engine leaves the decode engine as it is (R20). -/
theorem takeToken_enc_dec {t : Token} {s s' : State} (h : takeToken .enc t s = .next s') : s'.dec = s.dec := by
  rcases takeToken_enc_cases t s s' h with rfl | ⟨_, rfl⟩ | ⟨_, rfl⟩ | ⟨_, _, rfl⟩ | ⟨_, _, _, _, rfl⟩ <;> rfl

/-- A token of the decode engine leaves the encode engine as it is (R20). -/
theorem takeToken_dec_enc {t : Token} {s s' : State} (h : takeToken .dec t s = .next s') : s'.enc = s.enc := by
  rcases takeToken_dec_cases t s s' h with rfl | ⟨_, rfl⟩ | ⟨_, rfl⟩ | ⟨_, _, rfl⟩ | ⟨_, _, _, _, rfl⟩ <;> rfl

/-- Only the engine that takes the token can change its STATE. -/
theorem takeToken_streamState_other {e f : Engine} {t : Token} {s s' : State} (h : takeToken e t s = .next s')
    (hne : f ≠ e) : s'.streamState f = s.streamState f := by
  cases e <;> cases f
  · exact absurd rfl hne
  · exact congrArg Decoder.state (takeToken_enc_dec h)
  · exact congrArg Encoder.state (takeToken_dec_enc h)
  · exact absurd rfl hne

/-! ### Which operations enter ERROR -/

/-- An outcome `o` in which engine `e` is in ERROR is `s` with an error entry of `e`, of a cause other than NONE, and
nothing else changed. -/
def State.EntersPrecisely (e : Engine) (s : State) (o : Host.Outcome State Fault Refusal) : Prop :=
  ∀ s', o = .next s' → s'.streamState e = .error → ∃ c, c ≠ .none ∧ s' = s.raiseFault e c

theorem State.entersPrecisely_raiseFault (e : Engine) (s : State) {c : Cause} (hc : c ≠ .none) :
    s.EntersPrecisely e (.next (s.raiseFault e c)) := by
  rintro s' ⟨⟩ _
  exact ⟨c, hc, rfl⟩

theorem State.entersPrecisely_of_ne {e : Engine} {s s' : State} (h : s'.streamState e ≠ .error) :
    s.EntersPrecisely e (.next s') := by
  rintro _ ⟨⟩ herr
  exact absurd herr h

/-- Behind the gate of DATA and END it is enough that the engine's own operation enters ERROR precisely: the gate itself
raises SEQ or lets it run. -/
theorem State.entersPrecisely_gate {e : Engine} {s : State} {body : Host.Outcome State Fault Refusal}
    (hs : s.streamState e ≠ .error)
    (hbody : s.streamState e = .empty ∨ s.streamState e = .run → s.EntersPrecisely e body) :
    s.EntersPrecisely e (s.gate e body) := by
  rcases s.gate_cases e body with ⟨herr, _⟩ | ⟨_, hg⟩ | ⟨hopen, hg⟩
  · exact absurd herr hs
  · rw [hg]; exact s.entersPrecisely_raiseFault e (by decide)
  · rw [hg]; exact hbody hopen

/-- DATA on the encode engine raises nothing, and leaves it in RUN. -/
theorem Encoder.data_state {r : ReseedReading} {c : Byte} {e : Encoder} (ho : e.state = .empty ∨ e.state = .run) :
    (∃ e', e.data r c = .ok e' ∧ e'.state = .run) ∨ ∃ f, e.data r c = .stop f := by
  rcases ho with hs | hs
  · exact .inl ⟨_, Encoder.data_empty r c e hs, rfl⟩
  · unfold Encoder.data
    rw [hs]
    dsimp only
    cases e.dict.seq e.s with
    | none => exact .inr ⟨_, rfl⟩
    | some u =>
      dsimp only
      cases e.dict.find r (u ++ [c]) with
      | some k => exact .inl ⟨_, rfl, rfl⟩
      | none => exact .inl ⟨_, rfl, by simpa [Encoder.miss] using hs⟩

/-- DATA on the decode engine leaves an open stream open, or raises a cause other than NONE. -/
theorem Decoder.data_state {b : Byte} {d : Decoder} (ho : d.state = .empty ∨ d.state = .run) :
    (∀ d', d.data .insertThenReseed .literal b = .ok d' → d'.state = .empty ∨ d'.state = .run) ∧
    (∀ c, d.data .insertThenReseed .literal b = .raise c → c ≠ .none) := by
  obtain ⟨x, hu | ⟨k, hu⟩⟩ := d.unpack_eq b <;> rw [Decoder.data, hu] <;> dsimp only
  · refine ⟨?_, fun c hc => by cases hc⟩
    rintro d' ⟨⟩
    exact ho
  · refine ⟨fun d' hd => .inr (Decoder.decodeCode_state (d := d.withUnpack x) ho hd), fun c hc => ?_⟩
    rcases Decoder.decodeCode_raise _ k c hc with ⟨rfl, _⟩ | ⟨rfl, _⟩ <;> decide

/-- DATA enters ERROR only by an error entry with a cause, on either engine. -/
theorem State.entersPrecisely_data {e : Engine} {s : State} (hs : s.streamState e ≠ .error) (b : Byte) :
    s.EntersPrecisely e (exec (dataOf e b) s) := by
  cases e with
  | enc =>
    refine State.entersPrecisely_gate hs fun ho => ?_
    rcases Encoder.data_state (r := reseedReading) (c := b) ho with ⟨e', hd, hrun⟩ | ⟨f, hd⟩ <;> rw [hd]
    · exact State.entersPrecisely_of_ne (s' := { s with enc := e' }) (by simp [hrun])
    · rintro s' ⟨⟩
  | dec =>
    refine State.entersPrecisely_gate hs fun ho => ?_
    obtain ⟨hok, hraise⟩ := Decoder.data_state (b := b) ho
    rw [reseedReading, aboveNextPolicy]
    cases hd : s.dec.data .insertThenReseed .literal b with
    | ok d =>
      refine State.entersPrecisely_of_ne (s' := { s with dec := d }) ?_
      rcases hok d hd with h | h <;> simp [h]
    | raise c => exact s.entersPrecisely_raiseFault .dec (hraise c hd)
    | stop _ | refuse _ => rintro s' ⟨⟩

/-- END enters ERROR in DONE alone, with cause SEQ. -/
theorem State.entersPrecisely_end {e : Engine} {s : State} (hs : s.streamState e ≠ .error) :
    s.EntersPrecisely e (exec (endOf e) s) := by
  cases e with
  | enc =>
    exact State.entersPrecisely_gate hs fun _ =>
      State.entersPrecisely_of_ne (s' := { s with enc := s.enc.finish }) StreamState.noConfusion
  | dec =>
    exact State.entersPrecisely_gate hs fun _ =>
      State.entersPrecisely_of_ne (s' := { s with dec := s.dec.finish }) StreamState.noConfusion

/-- A token that enters ERROR on its engine is an error entry on the machine before it (R202, R203). -/
theorem takeToken_entersPrecisely {e : Engine} {s : State} (hs : s.streamState e ≠ .error) (t : Token) :
    s.EntersPrecisely e (takeToken e t s) := by
  rcases decode_kinds t with ⟨_, _, hd⟩ | ⟨_, hd⟩ | ⟨_, hd⟩ | ⟨_, hd⟩ | ⟨_, _, hd⟩
  · rw [takeToken_ok e t s _ (hd e)]
    exact State.entersPrecisely_data hs _
  · rw [takeToken_ok e t s _ (hd e)]
    exact State.entersPrecisely_end hs
  · rw [takeToken_ok e t s _ (hd e)]
    cases e with
    | enc => exact State.entersPrecisely_of_ne (s' := { s with enc := s.enc.start }) StreamState.noConfusion
    | dec => exact State.entersPrecisely_of_ne (s' := { s with dec := s.dec.start }) StreamState.noConfusion
  · rw [takeToken_ok e t s _ (hd e)]
    have hraise := s.entersPrecisely_raiseFault e (c := .abort) (by decide)
    rcases s.takeAbort_cases e with ⟨herr, _⟩ | ⟨_, ha⟩
    · exact absurd herr hs
    · rw [← ha] at hraise
      cases e <;> exact hraise
  · obtain ⟨x, hx⟩ := hd e
    rw [takeToken_reserved e t s x hx]
    rcases s.takeReserved_cases e with ⟨herr, _⟩ | ⟨_, hr⟩
    · exact absurd herr hs
    · rw [hr]
      exact s.entersPrecisely_raiseFault e (by decide)

/-- Settles O13: the other engine keeps its STATE, and every operation that enters ERROR does so by the one error entry. -/
theorem errorsArePrecise : Obligations.ErrorsArePrecise := by
  intro e e' t s s' htake hbefore hafter
  obtain rfl : e' = e := by
    by_contra hne
    exact hbefore ((takeToken_streamState_other htake hne).symm.trans hafter)
  obtain ⟨c, hc, rfl⟩ := takeToken_entersPrecisely hbefore t s' htake hafter
  exact ⟨rfl, c, hc, by rintro rfl; rfl, by rintro rfl; rfl⟩

/-! ### The step -/

/-- The engine that moves takes the head of its channel. -/
theorem State.take_cons {e : Engine} {s : State} {t : Token} {ts : List Token} (h : s.channel e = t :: ts) :
    s.take e = (some (e, t), s.setChannel e ts) := by
  rw [State.take, h]

theorem step_of_fetch {s s' : State} {e : Engine} {t : Token} (h : s.fetch = (some (e, t), s')) :
    step s = takeToken e t s' := by
  rw [step, h]

theorem State.fetch_scheduled {s : State} {e : Engine} {rest : List Engine} (h : s.sched = e :: rest) :
    s.fetch = State.take e { s with sched := rest } := by
  rw [State.fetch, h]

/-- With an empty schedule the encode engine moves if it has a token, and the decode engine otherwise. -/
theorem State.fetch_unscheduled {s : State} {e : Engine} {t : Token} {ts : List Token} (hsched : s.sched = [])
    (hch : s.channel e = t :: ts) (hturn : e = .dec → s.encIn = []) : s.fetch = s.take e := by
  rw [State.fetch, hsched]
  cases e with
  | enc =>
    have henc : s.encIn = t :: ts := hch
    rw [henc]
  | dec => rw [hturn rfl]

/-- Settles O6: whose turn it is decides which channel's head is taken. -/
theorem stepRunsDecodedToken : Obligations.StepRunsDecodedToken := by
  intro s e t ts hch
  refine ⟨fun rest hsched => ?_, fun hsched hturn => ?_, fun i s' hi => takeToken_ok e t s' i hi⟩
  · have hch' : State.channel e { s with sched := rest } = t :: ts := by cases e <;> exact hch
    exact step_of_fetch ((State.fetch_scheduled hsched).trans (State.take_cons hch'))
  · exact step_of_fetch ((State.fetch_unscheduled hsched hch hturn).trans (State.take_cons hch))

end Sys2Proof.Machine
end

section
/-! SUPPORT. The two engines do not touch each other (R20, R61): taking a token is an operation on its own engine alone,
which reads and writes nothing else of the machine. -/

namespace Sys2Proof.Machine

/-- The machine `x` with engine `e` as `s` has it. -/
def State.withEngine (e : Engine) (x s : State) : State :=
  match e with
  | .enc => { x with enc := s.enc }
  | .dec => { x with dec := s.dec }

/-- An outcome with its next state, if there is one, changed by `f`. -/
def mapNext (f : State → State) : Host.Outcome State Fault Refusal → Host.Outcome State Fault Refusal
  | .next s => .next (f s)
  | .fault r => .fault r
  | .refused r => .refused r

@[simp] theorem State.withEngine_self (e : Engine) (s : State) : s.withEngine e s = s := by cases e <;> rfl

@[simp] theorem State.withEngine_streamState (e : Engine) (x s : State) :
    (x.withEngine e s).streamState e = s.streamState e := by cases e <;> rfl

@[simp] theorem State.withEngine_withEngine (e : Engine) (x y s : State) :
    (x.withEngine e y).withEngine e s = x.withEngine e s := by cases e <;> rfl

theorem State.withEngine_raiseFault (e : Engine) (c : Cause) (x s : State) :
    (x.withEngine e s).raiseFault e c = x.withEngine e (s.raiseFault e c) := by cases e <;> rfl

/-- An engine's operation is committed to that engine alone. -/
theorem State.commitEnc_withEngine (x s : State) (r : Result Encoder) :
    (x.withEngine .enc s).commitEnc r = mapNext (x.withEngine .enc) (s.commitEnc r) := by cases r <;> rfl

theorem State.commitDec_withEngine (x s : State) (r : Result Decoder) :
    (x.withEngine .dec s).commitDec r = mapNext (x.withEngine .dec) (s.commitDec r) := by cases r <;> rfl

/-- The gate tests its own engine alone. -/
theorem State.gate_withEngine {e : Engine} {x s : State} {body body' : Host.Outcome State Fault Refusal}
    (h : body' = mapNext (x.withEngine e) body) :
    (x.withEngine e s).gate e body' = mapNext (x.withEngine e) (s.gate e body) := by
  unfold State.gate
  rw [State.withEngine_streamState]
  cases s.streamState e with
  | error => rfl
  | done => exact congrArg Host.Outcome.next (State.withEngine_raiseFault e .seq x s)
  | empty | run => exact h

theorem State.takeAbort_withEngine (e : Engine) (x s : State) :
    (x.withEngine e s).takeAbort e = x.withEngine e (s.takeAbort e) := by
  unfold State.takeAbort
  rw [State.withEngine_streamState]
  cases s.streamState e with
  | error => rfl
  | done | empty | run => exact State.withEngine_raiseFault e .abort x s

theorem State.takeReserved_withEngine (e : Engine) (x s : State) :
    (x.withEngine e s).takeReserved e = x.withEngine e (s.takeReserved e) := by
  unfold State.takeReserved
  rw [State.withEngine_streamState]
  cases s.streamState e with
  | error => rfl
  | done | empty | run => exact State.withEngine_raiseFault e .badToken x s

/-- An instruction runs on its own engine, whatever machine `x` that engine stands in. -/
theorem exec_withEngine (i : Instr) (x s : State) :
    exec i (x.withEngine i.engine s) = mapNext (x.withEngine i.engine) (exec i s) := by
  cases i with
  | encData c => exact State.gate_withEngine (x.commitEnc_withEngine s _)
  | encEnd => exact State.gate_withEngine (x.commitEnc_withEngine s _)
  | encStart => rfl
  | encAbort => exact congrArg Host.Outcome.next (State.takeAbort_withEngine .enc x s)
  | decData b => exact State.gate_withEngine (x.commitDec_withEngine s _)
  | decEnd => exact State.gate_withEngine (x.commitDec_withEngine s _)
  | decStart => rfl
  | decAbort => exact congrArg Host.Outcome.next (State.takeAbort_withEngine .dec x s)

/-- A token decodes to an instruction of the engine that takes it. -/
theorem engine_of_decode {e : Engine} {t : Token} {i : Instr} (h : decode e t = .ok i) : i.engine = e := by
  rcases decode_kinds t with ⟨_, _, hd⟩ | ⟨_, hd⟩ | ⟨_, hd⟩ | ⟨_, hd⟩ | ⟨_, _, hd⟩
  case inr.inr.inr.inr => obtain ⟨x, hx⟩ := hd e; cases hx.symm.trans h
  all_goals cases (hd e).symm.trans h; cases e <;> rfl

/-- Taking a token is an operation on its own engine, whatever machine `x` that engine stands in. -/
theorem takeToken_withEngine (e : Engine) (t : Token) (x s : State) :
    takeToken e t (x.withEngine e s) = mapNext (x.withEngine e) (takeToken e t s) := by
  cases h : decode e t with
  | ok i =>
    rw [takeToken_ok e t _ i h, takeToken_ok e t s i h]
    obtain rfl := engine_of_decode h
    exact exec_withEngine i x s
  | error y =>
    rw [takeToken_reserved e t _ y h, takeToken_reserved e t s y h, State.takeReserved_withEngine]
    rfl

/-- So is taking several, one after the other. -/
theorem takeTokens_withEngine (e : Engine) (ts : List Token) (x s : State) :
    takeTokens e ts (x.withEngine e s) = mapNext (x.withEngine e) (takeTokens e ts s) := by
  induction ts generalizing s with
  | nil => rfl
  | cons t ts ih =>
    rw [takeTokens, takeTokens, takeToken_withEngine]
    cases takeToken e t s with
    | next s' => exact ih s'
    | fault _ | refused _ => rfl

theorem takeToken_withEngine_next {e : Engine} {t : Token} {s a : State} (h : takeToken e t s = .next a) (x : State) :
    takeToken e t (x.withEngine e s) = .next (x.withEngine e a) := by
  rw [takeToken_withEngine, h]; rfl

theorem takeTokens_withEngine_next {e : Engine} {ts : List Token} {s a : State} (h : takeTokens e ts s = .next a)
    (x : State) : takeTokens e ts (x.withEngine e s) = .next (x.withEngine e a) := by
  rw [takeTokens_withEngine, h]; rfl

/-- A token changes nothing but its own engine. -/
theorem takeToken_frame {e : Engine} {t : Token} {s a : State} (h : takeToken e t s = .next a) :
    a = s.withEngine e a := by
  have hself := takeToken_withEngine_next h s
  rw [State.withEngine_self, h] at hself
  exact Host.Outcome.next.inj hself

/-- An instruction changes nothing but its own engine. -/
theorem exec_frame {i : Instr} {s a : State} (h : exec i s = .next a) : a = s.withEngine i.engine a := by
  have hself := exec_withEngine i s s
  rw [State.withEngine_self, h] at hself
  exact Host.Outcome.next.inj hself

/-- Settles O16: an instruction runs on its own engine alone, so it runs the same beside any other engine. -/
theorem enginesAreIndependent : Obligations.EnginesAreIndependent := by
  refine ⟨fun i s t hi h => ?_, fun i s t hi h => ?_⟩
  · have hframe : t = { s with enc := t.enc } := (exec_frame h).trans (by rw [hi]; rfl)
    refine ⟨by rw [hframe], by rw [hframe], by rw [hframe], by rw [hframe], fun d => ?_⟩
    have hrun := exec_withEngine i { s with dec := d } s
    rw [hi, h] at hrun
    rw [hframe]
    exact hrun
  · have hframe : t = { s with dec := t.dec } := (exec_frame h).trans (by rw [hi]; rfl)
    refine ⟨by rw [hframe], by rw [hframe], by rw [hframe], by rw [hframe], fun e => ?_⟩
    have hrun := exec_withEngine i { s with enc := e } s
    rw [hi, h] at hrun
    rw [hframe]
    exact hrun

/-- Settles O17: in either order each engine ends as its own token makes it. -/
theorem enginesCommute : Obligations.EnginesCommute := by
  intro t u s a b henc hdec
  have ha : a = State.withEngine .dec a s := by rw [takeToken_frame henc]; rfl
  have hb : b = State.withEngine .enc b s := by rw [takeToken_frame hdec]; rfl
  have hdec' := takeToken_withEngine_next hdec a
  have henc' := takeToken_withEngine_next henc b
  rw [← ha] at hdec'
  rw [← hb] at henc'
  refine ⟨_, hdec', henc'.trans ?_⟩
  rw [takeToken_frame hdec, takeToken_frame henc]
  rfl

end Sys2Proof.Machine
end

section
/-! SUPPORT. Every token keeps the invariants of R43 and R44, and the model stops on none: the invariants rule out both
of its stops. -/

namespace Sys2Proof.Machine

/-! ### The encode engine -/

/-- An error entry of the encode engine with a cause of its own (R201) keeps its invariants. -/
theorem Encoder.Inv.enterError {e : Encoder} (h : e.Inv) {c : Cause} (hnone : c ≠ .none)
    (hown : c ≠ .badFirst ∧ c ≠ .overlong) : Encoder.Inv { e with err := c, state := .error } where
  domain := h.domain
  shape := h.shape
  match_present := StreamState.noConfusion
  done_flushed := StreamState.noConfusion
  err_iff := by simp [hnone]
  err_own := hown
  empty_fresh := StreamState.noConfusion

/-- START establishes the encode engine's invariants from any state. -/
theorem Encoder.inv_start (e : Encoder) : e.start.Inv where
  domain := Generation.domain_empty _
  shape := Generation.shape_empty _ _
  match_present := StreamState.noConfusion
  done_flushed := StreamState.noConfusion
  err_iff := by simp [Encoder.start]
  err_own := by simp [Encoder.start]
  empty_fresh := fun _ => ⟨rfl, rfl, rfl⟩

@[simp] theorem Encoder.finish_dict (e : Encoder) : e.finish.dict = e.dict := by
  unfold Encoder.finish; split <;> simp

@[simp] theorem Encoder.finish_err (e : Encoder) : e.finish.err = e.err := by
  unfold Encoder.finish; split <;> simp

@[simp] theorem Encoder.finish_state (e : Encoder) : e.finish.state = .done := rfl

@[simp] theorem Encoder.finish_par (e : Encoder) : e.finish.par = false := Encoder.packFlush_par _

theorem Encoder.Inv.finish {e : Encoder} (h : e.Inv) (ho : e.state = .empty ∨ e.state = .run) : e.finish.Inv where
  domain := by simpa using h.domain
  shape := by simpa using h.shape
  match_present := by simp
  done_flushed := by simp
  err_iff := by rcases ho with hs | hs <;> simp [h.err_iff, hs]
  err_own := by simpa using h.err_own
  empty_fresh := by simp

/-- An open stream has no error. -/
theorem Encoder.Inv.err_none {e : Encoder} (h : e.Inv) (ho : e.state = .empty ∨ e.state = .run) : e.err = .none :=
  h.err_iff.2 (by rcases ho with hs | hs <;> simp [hs])

/-- An engine in RUN that holds a match and has no error meets the invariants: what they say of the other STATEs is
void. -/
theorem Encoder.inv_of_run {e : Encoder} (hrun : e.state = .run) (hdom : e.dict.Domain) (hshape : e.dict.Shape)
    (hmatch : e.s.toNat < e.dict.next.toNat) (herr : e.err = .none) : e.Inv where
  domain := hdom
  shape := hshape
  match_present := fun _ => hmatch
  done_flushed := by simp [hrun]
  err_iff := by simp [hrun, herr]
  err_own := by simp [herr]
  empty_fresh := by simp [hrun]

theorem Generation.Domain.baseCode_lt {g : Generation} (h : g.Domain) (c : Byte) :
    (baseCode c).toNat < g.next.toNat := by
  rw [baseCode_toNat]
  exact lt_of_lt_of_le c.isLt h.1

/-- The engine's match is an entry of its generation. -/
theorem Encoder.Inv.held {e : Encoder} (h : e.Inv) (hrun : e.state = .run) : ∃ u, e.dict.seq e.s = some u :=
  h.domain.seq_of_lt (h.match_present hrun)

/-- DATA on an open stream completes, and keeps the invariants (R142). -/
theorem Encoder.Inv.data {e : Encoder} (h : e.Inv) (ho : e.state = .empty ∨ e.state = .run) (c : Byte) :
    ∃ e', e.data .insertThenReseed c = .ok e' ∧ e'.Inv := by
  have herr := h.err_none ho
  rcases ho with hempty | hrun
  · exact ⟨_, Encoder.data_empty _ c e hempty,
      Encoder.inv_of_run rfl h.domain h.shape (h.domain.baseCode_lt c) herr⟩
  · obtain ⟨u, hu⟩ := h.held hrun
    rcases Encoder.data_run c e u hrun hu with ⟨k, hfind, hdata⟩ | ⟨hfind, hdata⟩
    · exact ⟨_, hdata, Encoder.inv_of_run hrun h.domain h.shape (Generation.find_some h.domain hfind).1 herr⟩
    · have hdom := Generation.insert_domain h.domain (u ++ [c])
      have hshape := Generation.insert_shape h.domain h.shape e.s u c hu (Generation.find_none h.domain hfind)
      refine ⟨_, hdata, Encoder.inv_of_run ?_ ?_ ?_ ?_ ?_⟩
      · simpa [Encoder.miss] using hrun
      · simpa [Encoder.miss] using hdom
      · simpa [Encoder.miss] using hshape
      · simpa [Encoder.miss] using hdom.baseCode_lt c
      · simpa [Encoder.miss] using herr

/-! ### The decode engine -/

/-- An error entry of the decode engine keeps its invariants. -/
theorem Decoder.Inv.enterError {d : Decoder} (h : d.Inv) {c : Cause} (hnone : c ≠ .none) :
    Decoder.Inv { d with err := c, state := .error } where
  domain := h.domain
  bounded := h.bounded
  prev_len := StreamState.noConfusion
  err_iff := by simp [hnone]
  empty_fresh := StreamState.noConfusion

/-- START establishes the decode engine's invariants from any state. -/
theorem Decoder.inv_start (d : Decoder) : d.start.Inv where
  domain := Generation.domain_empty _
  bounded := Generation.bounded_empty _ _
  prev_len := StreamState.noConfusion
  err_iff := by simp [Decoder.start]
  empty_fresh := fun _ => ⟨rfl, rfl, GroupPhase.noConfusion⟩

theorem Decoder.Inv.finish {d : Decoder} (h : d.Inv) (ho : d.state = .empty ∨ d.state = .run) : d.finish.Inv where
  domain := h.domain
  bounded := h.bounded
  prev_len := StreamState.noConfusion
  err_iff := by rcases ho with hs | hs <;> simp [Decoder.finish, Decoder.unpackEnd, h.err_iff, hs]
  empty_fresh := StreamState.noConfusion

/-- An open stream has no error. -/
theorem Decoder.Inv.err_none {d : Decoder} (h : d.Inv) (ho : d.state = .empty ∨ d.state = .run) : d.err = .none :=
  h.err_iff.2 (by rcases ho with hs | hs <;> simp [hs])

/-- An engine in RUN that holds a sequence and has no error meets the invariants, whatever its unpack half holds. -/
theorem Decoder.inv_of_run {d : Decoder} (hrun : d.state = .run) (hdom : d.table.Domain) (hbound : d.table.Bounded)
    (hprev : 1 ≤ d.prev.length ∧ d.prev.length ≤ maxSeqLen) (herr : d.err = .none) : d.Inv where
  domain := hdom
  bounded := hbound
  prev_len := fun _ => hprev
  err_iff := by simp [hrun, herr]
  empty_fresh := by simp [hrun]

/-- An operation completes with a state that has `P`, or raises a cause: it does not stop the model. -/
def Result.Safe {σ : Type} (P : σ → Prop) : Result σ → Prop
  | .ok x => P x
  | .raise c => c ≠ .none
  | .stop _ => False
  | .refuse _ => False

theorem Result.Safe.map {σ : Type} {P Q : σ → Prop} {f : σ → σ} (hf : ∀ x, P x → Q (f x)) {r : Result σ}
    (h : r.Safe P) : (r.map f).Safe Q := by
  cases r with
  | ok x => exact hf x h
  | raise c => exact h
  | stop _ | refuse _ => exact h.elim

/-- Every entry of a table has 1 to MAX_SEQ_LEN bytes. -/
theorem Generation.Bounded.seq_length {g : Generation} (h : g.Bounded) {k : Code} {u : Seq} (hk : g.seq k = some u) :
    1 ≤ u.length ∧ u.length ≤ maxSeqLen := by
  rcases Nat.lt_or_ge k.toNat nBase with hbase | hdyn
  · rw [g.seq_base k hbase] at hk
    obtain rfl := Option.some.inj hk
    exact ⟨le_rfl, by simp [maxSeqLen]⟩
  · obtain ⟨hlo, hhi⟩ := h k u hdyn hk
    exact ⟨by omega, hhi⟩

/-- The end of a codeword step: PREV and a byte are inserted, and `u` is put out and held (R165). -/
theorem Decoder.Inv.putSeq {d : Decoder} (h : d.Inv) (hrun : d.state = .run) (x : Byte) {u : Seq} (hlo : 1 ≤ u.length)
    (hhi : d.prev.length + 1 ≤ maxSeqLen → u.length ≤ maxSeqLen) :
    (d.putSeq .insertThenReseed (d.prev ++ [x]) u).Safe fun d' => d'.Inv ∧ d'.state = .run := by
  have hlen : (d.prev ++ [x]).length = d.prev.length + 1 := by simp
  rcases d.putSeq_cases .insertThenReseed (d.prev ++ [x]) u with ⟨_, hput⟩ | ⟨hfits, hput⟩ <;> rw [hput]
  · exact Cause.noConfusion
  · have hprev := (h.prev_len hrun).1
    exact ⟨Decoder.inv_of_run hrun (Generation.insert_domain h.domain _)
      (Generation.insert_bounded h.domain h.bounded _ (by omega) hfits) ⟨hlo, hhi (by omega)⟩
      (h.err_none (.inr hrun)), hrun⟩

/-- A codeword step on an open stream never stops the model, and what it completes with meets the invariants in RUN. -/
theorem Decoder.Inv.decodeCode {d : Decoder} (h : d.Inv) (ho : d.state = .empty ∨ d.state = .run) (k : Code) :
    (d.decodeCode .insertThenReseed .literal k).Safe fun d' => d'.Inv ∧ d'.state = .run := by
  rcases ho with hempty | hrun
  · rw [Decoder.decodeCode_empty _ _ k d hempty, Decoder.firstCode]
    split
    · exact Cause.noConfusion
    · have hlen : 1 ≤ [codeLow8 k].length ∧ [codeLow8 k].length ≤ maxSeqLen := by simp [maxSeqLen]
      exact ⟨Decoder.inv_of_run rfl h.domain h.bounded hlen (h.err_none (.inl hempty)), rfl⟩
  · rw [Decoder.decodeCode_run k d hrun]
    split
    · rename_i hlt
      obtain ⟨u, hu⟩ := h.domain.seq_of_lt hlt
      obtain ⟨hlo, hhi⟩ := h.bounded.seq_length hu
      rw [Decoder.codeInTable, hu]
      cases u with
      | nil => simp at hlo
      | cons x rest => exact h.putSeq hrun x hlo fun _ => hhi
    · rw [Decoder.codeAtNext]
      have hprev := (h.prev_len hrun).1
      cases hp : d.prev with
      | nil => simp [hp] at hprev
      | cons x rest =>
        dsimp only
        rw [← hp]
        exact h.putSeq hrun x (by simp) (by simp)

/-- DATA on an open stream never stops the model, and keeps the invariants (R162). -/
theorem Decoder.Inv.data {d : Decoder} (h : d.Inv) (ho : d.state = .empty ∨ d.state = .run) (b : Byte) :
    (d.data .insertThenReseed .literal b).Safe Decoder.Inv := by
  have hcode (x : Decoder) (k : Code) :
      ((d.withUnpack x).decodeCode .insertThenReseed .literal k).Safe Decoder.Inv := by
    rw [Decoder.decodeCode_withUnpack]
    refine (h.decodeCode ho k).map fun d' ⟨hinv, hrun⟩ => ?_
    exact Decoder.inv_of_run hrun hinv.domain hinv.bounded (hinv.prev_len hrun) (hinv.err_none (.inr hrun))
  rw [Decoder.data]
  rcases d.unpack_cases b with ⟨_, hu⟩ | ⟨_, hu⟩ | ⟨_, hu⟩ <;> rw [hu]
  · exact ⟨h.domain, h.bounded, h.prev_len, h.err_iff, fun hs => by simp [h.empty_fresh hs]⟩
  · exact hcode { d with nib := byteLow4 b, phase := .byte2 } _
  · exact hcode { d with phase := .byte0 } _

/-! ### A token, and a step -/

/-- An error entry with a cause that both engines can raise (R201) keeps the invariants. -/
theorem State.Inv.raiseFault {s : State} (h : s.Inv) (e : Engine) {c : Cause} (hnone : c ≠ .none)
    (hboth : c ≠ .badFirst ∧ c ≠ .overlong) : (s.raiseFault e c).Inv := by
  cases e with
  | enc => exact ⟨h.enc.enterError hnone hboth, h.dec⟩
  | dec => exact ⟨h.enc, h.dec.enterError hnone⟩

/-- The outcome is a next state that meets the invariants. -/
def KeepsInv (o : Host.Outcome State Fault Refusal) : Prop := ∃ s', o = .next s' ∧ s'.Inv

theorem State.Inv.keepsInv {s : State} (h : s.Inv) : KeepsInv (.next s) := ⟨s, rfl, h⟩

/-- Behind the gate of DATA and END it is enough that the engine's own operation keeps the invariants. -/
theorem State.Inv.gate {s : State} (h : s.Inv) {e : Engine} {body : Host.Outcome State Fault Refusal}
    (hbody : s.streamState e = .empty ∨ s.streamState e = .run → KeepsInv body) : KeepsInv (s.gate e body) := by
  rcases s.gate_cases e body with ⟨_, hg⟩ | ⟨_, hg⟩ | ⟨ho, hg⟩ <;> rw [hg]
  · exact h.keepsInv
  · exact (h.raiseFault e (by decide) (by decide)).keepsInv
  · exact hbody ho

theorem State.Inv.exec_data {s : State} (h : s.Inv) (e : Engine) (b : Byte) : KeepsInv (exec (dataOf e b) s) := by
  cases e with
  | enc =>
    refine h.gate fun ho => ?_
    obtain ⟨e', hdata, hinv⟩ := h.enc.data ho b
    rw [reseedReading, hdata]
    exact ⟨_, rfl, hinv, h.dec⟩
  | dec =>
    refine h.gate fun ho => ?_
    have hsafe := h.dec.data ho b
    rw [reseedReading, aboveNextPolicy]
    cases hdata : s.dec.data .insertThenReseed .literal b <;> rw [hdata] at hsafe
    case ok d => exact ⟨_, rfl, h.enc, hsafe⟩
    case raise c => exact ⟨_, rfl, h.enc, h.dec.enterError hsafe⟩
    all_goals exact hsafe.elim

theorem State.Inv.exec_end {s : State} (h : s.Inv) (e : Engine) : KeepsInv (exec (endOf e) s) := by
  cases e with
  | enc => exact h.gate fun ho => ⟨_, rfl, h.enc.finish ho, h.dec⟩
  | dec => exact h.gate fun ho => ⟨_, rfl, h.enc, h.dec.finish ho⟩

theorem State.Inv.exec_start {s : State} (h : s.Inv) (e : Engine) : KeepsInv (exec (startOf e) s) := by
  cases e with
  | enc => exact ⟨_, rfl, s.enc.inv_start, h.dec⟩
  | dec => exact ⟨_, rfl, h.enc, s.dec.inv_start⟩

theorem State.Inv.takeAbort {s : State} (h : s.Inv) (e : Engine) : (s.takeAbort e).Inv := by
  rcases s.takeAbort_cases e with ⟨_, ha⟩ | ⟨_, ha⟩ <;> rw [ha]
  · exact h
  · exact h.raiseFault e (by decide) (by decide)

theorem State.Inv.takeReserved {s : State} (h : s.Inv) (e : Engine) : (s.takeReserved e).Inv := by
  rcases s.takeReserved_cases e with ⟨_, hr⟩ | ⟨_, hr⟩ <;> rw [hr]
  · exact h
  · exact h.raiseFault e (by decide) (by decide)

/-- Taking any token, legal or reserved, on either engine has a next state, and it meets the invariants. -/
theorem State.Inv.takeToken {s : State} (h : s.Inv) (e : Engine) (t : Token) : KeepsInv (takeToken e t s) := by
  rcases decode_kinds t with ⟨_, _, hd⟩ | ⟨_, hd⟩ | ⟨_, hd⟩ | ⟨_, hd⟩ | ⟨_, _, hd⟩
  case inr.inr.inr.inr =>
    obtain ⟨x, hx⟩ := hd e
    rw [takeToken_reserved e t s x hx]
    exact (h.takeReserved e).keepsInv
  all_goals rw [takeToken_ok e t s _ (hd e)]
  · exact h.exec_data e _
  · exact h.exec_end e
  · exact h.exec_start e
  · have hkeeps := (h.takeAbort e).keepsInv
    cases e <;> exact hkeeps

theorem State.Inv.takeTokens {s : State} (h : s.Inv) (e : Engine) (ts : List Token) : KeepsInv (takeTokens e ts s) := by
  induction ts generalizing s with
  | nil => exact h.keepsInv
  | cons t ts ih =>
    obtain ⟨s', htake, hinv⟩ := h.takeToken e t
    rw [takeTokens_cons htake]
    exact ih hinv

/-- The invariants say nothing of the channels or the schedule. -/
theorem State.Inv.of_engines {s s' : State} (h : s.Inv) (henc : s'.enc = s.enc) (hdec : s'.dec = s.dec) : s'.Inv :=
  ⟨henc ▸ h.enc, hdec ▸ h.dec⟩

/-- A step uses up the turn, and with it the oldest token of one engine's channel, or no token where the engine whose
turn it is has none (R212, R227). -/
theorem step_cases (s : State) :
    (step s = .next { s with sched := s.sched.tail } ∧ (s.sched = [] → s.encIn = [] ∧ s.decIn = [])) ∨
    ∃ e t ts, s.channel e = t :: ts ∧
      step s = takeToken e t (State.setChannel e ts { s with sched := s.sched.tail }) := by
  cases hsched : s.sched with
  | cons e rest =>
    cases hch : s.channel e with
    | nil =>
      have hch' : State.channel e { s with sched := rest } = [] := by cases e <;> exact hch
      refine .inl ⟨?_, fun hnil => absurd hnil (List.cons_ne_nil e rest)⟩
      rw [step, State.fetch_scheduled hsched, State.take, hch']
      rfl
    | cons t ts =>
      obtain ⟨hturn, _⟩ := stepRunsDecodedToken s e t ts hch
      exact .inr ⟨e, t, ts, hch, hturn rest hsched⟩
  | nil =>
    have hself : { s with sched := [] } = s := by rw [← hsched]
    rw [List.tail_nil, hself]
    cases henc : s.encIn with
    | cons t ts =>
      obtain ⟨_, hfree, _⟩ := stepRunsDecodedToken s .enc t ts henc
      exact .inr ⟨.enc, t, ts, henc, hfree hsched Engine.noConfusion⟩
    | nil =>
      cases hdec : s.decIn with
      | cons t ts =>
        obtain ⟨_, hfree, _⟩ := stepRunsDecodedToken s .dec t ts hdec
        exact .inr ⟨.dec, t, ts, hdec, hfree hsched fun _ => henc⟩
      | nil =>
        refine .inl ⟨?_, fun _ => ⟨rfl, rfl⟩⟩
        rw [step, State.fetch, hsched, henc, State.take, State.channel_dec, hdec]

/-- Settles O53: a step takes a token or none, and every token has a next state that meets the invariants. -/
theorem stepKeepsInvariants : Obligations.StepKeepsInvariants := by
  intro s h
  rcases step_cases s with ⟨hstep, _⟩ | ⟨e, t, ts, _, hstep⟩ <;> rw [hstep]
  · exact ⟨_, rfl, h.of_engines rfl rfl⟩
  · have hinv : (State.setChannel e ts { s with sched := s.sched.tail }).Inv := by
      cases e <;> exact h.of_engines rfl rfl
    exact hinv.takeToken e t

/-- Settles O52: the state after reset is one that START establishes. -/
theorem resetMeetsInvariants : Obligations.ResetMeetsInvariants :=
  ⟨Encoder.reset.inv_start, Decoder.reset.inv_start⟩

end Sys2Proof.Machine
end

section
/-! SUPPORT. Whatever the schedule, each engine ends where its own tokens in order take it (R60, R61, R227). -/

namespace Sys2Proof.Machine

theorem run_succ {s s' : State} (h : step s = .next s') (n : Nat) :
    Host.Core.run Sys2Proof.core (n + 1) s = Host.Core.run Sys2Proof.core n s' := by
  have h' : Sys2Proof.core.step s = .next s' := h
  simp only [Host.Core.run, h']

/-- Tokens that are all taken are taken one by one. -/
theorem takeTokens_cons_next {e : Engine} {t : Token} {ts : List Token} {s b : State}
    (h : takeTokens e (t :: ts) s = .next b) : ∃ a, takeToken e t s = .next a ∧ takeTokens e ts a = .next b := by
  rw [takeTokens] at h
  cases ht : takeToken e t s with
  | next a => exact ⟨a, rfl, by rwa [ht] at h⟩
  | fault _ | refused _ => rw [ht] at h; cases h

/-! ### What is left after a turn -/

/-- The machine `s` after a turn that uses up no token. -/
def State.turned (s : State) : State := { s with sched := s.sched.tail }

/-- The machine `s` after a turn in which engine `e` takes the head of its channel, leaving the tokens `ts`, and is then
as `a` has it. -/
def State.taken (e : Engine) (ts : List Token) (s a : State) : State := (s.turned.setChannel e ts).withEngine e a

/-- What is still to happen: the turns scheduled and the tokens offered. -/
def State.pending (s : State) : Nat := s.sched.length + s.encIn.length + s.decIn.length

theorem State.pending_turned {s : State} (h : s.sched = [] → s.encIn = [] ∧ s.decIn = []) :
    s.turned.pending ≤ s.pending - 1 := by
  unfold State.pending State.turned
  cases hs : s.sched with
  | nil =>
    obtain ⟨henc, hdec⟩ := h hs
    simp [henc, hdec]
  | cons e rest =>
    simp only [List.tail_cons, List.length_cons]
    omega

theorem State.pending_taken {e : Engine} {s : State} {t : Token} {ts : List Token} (h : s.channel e = t :: ts)
    (a : State) : (s.taken e ts a).pending ≤ s.pending - 1 := by
  have hsched : s.sched.tail.length ≤ s.sched.length := by simp
  cases e with
  | enc =>
    have henc : s.encIn = t :: ts := h
    simp only [State.pending, State.taken, State.turned, State.withEngine, State.setChannel_enc, henc, List.length_cons]
    omega
  | dec =>
    have hdec : s.decIn = t :: ts := h
    simp only [State.pending, State.taken, State.turned, State.withEngine, State.setChannel_dec, hdec, List.length_cons]
    omega

/-- A turn that uses up no token leaves to each engine what it had to take. -/
theorem takeTokens_turned {e : Engine} {s b : State} (h : takeTokens e (s.channel e) s = .next b) :
    takeTokens e (s.turned.channel e) s.turned = .next (s.turned.withEngine e b) := by
  have hall := takeTokens_withEngine_next h s.turned
  cases e <;> exact hall

/-- The engine that has taken its token has the rest to take. -/
theorem takeTokens_taken_same {e : Engine} {ts : List Token} {s a b : State} (h : takeTokens e ts a = .next b) :
    takeTokens e ((s.taken e ts a).channel e) (s.taken e ts a) = .next ((s.taken e ts a).withEngine e b) := by
  have hch : (s.taken e ts a).channel e = ts := by cases e <;> rfl
  rw [hch, State.taken, State.withEngine_withEngine]
  exact takeTokens_withEngine_next h _

/-- The other engine has what it had to take. -/
theorem takeTokens_taken_other {e g : Engine} (hg : g ≠ e) {ts : List Token} {s a b : State}
    (h : takeTokens g (s.channel g) s = .next b) :
    takeTokens g ((s.taken e ts a).channel g) (s.taken e ts a) = .next ((s.taken e ts a).withEngine g b) := by
  have hall := takeTokens_withEngine_next h (s.taken e ts a)
  cases e <;> cases g
  · exact absurd rfl hg
  · exact hall
  · exact hall
  · exact absurd rfl hg

/-! ### The run -/

/-- The machine in which each engine `e` is as `f e` has it, with nothing waiting and nothing scheduled. -/
def State.settled (f : Engine → State) : State :=
  { enc := (f .enc).enc, dec := (f .dec).dec, encIn := [], decIn := [], sched := [] }

theorem State.settled_withEngine (s : State) (f : Engine → State) :
    State.settled (fun e => s.withEngine e (f e)) = State.settled f := rfl

/-- With nothing pending the machine is where its engines are. -/
theorem State.settled_of_pending {s : State} {f : Engine → State} (hn : s.pending = 0)
    (hf : ∀ e, takeTokens e (s.channel e) s = .next (f e)) : State.settled f = s := by
  obtain ⟨enc, dec, encIn, decIn, sched⟩ := s
  simp only [State.pending, Nat.add_eq_zero_iff, List.length_eq_zero_iff] at hn
  obtain ⟨⟨rfl, rfl⟩, rfl⟩ := hn
  rw [State.settled, ← Host.Outcome.next.inj (hf .enc), ← Host.Outcome.next.inj (hf .dec)]

/-- When each engine, alone, takes all its tokens and ends as `f` says, the machine runs to exactly that in any number
of steps that covers what is pending, whatever the schedule. -/
theorem run_settles (n : Nat) {s : State} {f : Engine → State}
    (hf : ∀ e, takeTokens e (s.channel e) s = .next (f e)) (hn : s.pending ≤ n) :
    Host.Core.run Sys2Proof.core n s = .next (State.settled f) := by
  induction n generalizing s f with
  | zero => rw [State.settled_of_pending (Nat.le_zero.1 hn) hf]; rfl
  | succ n ih =>
    rcases step_cases s with ⟨hstep, hidle⟩ | ⟨e, t, ts, hch, hstep⟩
    · rw [run_succ (s' := s.turned) hstep, ← State.settled_withEngine s.turned f]
      have hpending := State.pending_turned hidle
      exact ih (fun e => takeTokens_turned (hf e)) (by omega)
    · obtain ⟨a, htake, hrest⟩ := takeTokens_cons_next (hch ▸ hf e)
      have hstep' : step s = .next (s.taken e ts a) := by
        rw [hstep, State.taken, ← takeToken_withEngine_next htake]
        cases e <;> rfl
      rw [run_succ hstep', ← State.settled_withEngine (s.taken e ts a) f]
      have hpending := State.pending_taken hch a
      refine ih (fun g => ?_) (by omega)
      by_cases hg : g = e
      · subst hg; exact takeTokens_taken_same hrest
      · exact takeTokens_taken_other hg (hf g)

/-- Settles O9: each engine's own tokens have an end by the invariants, and the machine runs to both ends at once. -/
theorem scheduleDoesNotMatter : Obligations.ScheduleDoesNotMatter := by
  intro s h
  obtain ⟨a, ha, _⟩ := h.takeTokens .enc s.encIn
  obtain ⟨b, hb, _⟩ := h.takeTokens .dec s.decIn
  refine ⟨_, _, takeTokens_withEngine_next ha { s with encIn := [], decIn := [], sched := [] },
    takeTokens_withEngine_next hb { s with enc := a.enc, encIn := [], decIn := [], sched := [] }, ?_⟩
  exact run_settles _ (f := fun e => match e with | .enc => a | .dec => b)
    (fun e => by cases e; exacts [ha, hb]) le_rfl

end Sys2Proof.Machine
end

section
/-! SUPPORT. How NEXT and GEN move (R43, R105, R108, R109), and which codeword the encode engine packs (R106). -/

namespace Sys2Proof.Machine

/-- Settles O42: the domain is [0, NEXT), and the base codes are hard-wired. -/
theorem tableReadBelowNext : Obligations.TableReadBelowNext :=
  fun g k hdom hk => ⟨hdom.seq_of_lt hk, fun hbase => g.seq_base k hbase⟩

/-! ### The packed codeword -/

/-- Only an engine in RUN packs a codeword, and it is the code of the match. -/
theorem State.packed_eq_some {s : State} {t : Token} {k : Code} (h : s.packed t = some k) :
    s.enc.state = .run ∧ k = s.enc.s := by
  have hrun : s.enc.state = .run := by
    by_contra hne
    rw [State.packed_of_not_run hne] at h
    cases h
  refine ⟨hrun, ?_⟩
  unfold State.packed at h
  split at h
  · split at h
    · cases h
    · split at h <;> cases h
      rfl
  · cases h; rfl
  · cases h

/-- Settles O23: the packed codeword is the code of the match, which lies below NEXT. -/
theorem packedCodeIsPresent : Obligations.PackedCodeIsPresent := by
  intro t s k h hpacked
  obtain ⟨hrun, rfl⟩ := State.packed_eq_some hpacked
  have hlt := h.enc.match_present hrun
  have := s.enc.dict.next.isLt
  exact ⟨by omega, hlt, h.enc.held hrun⟩

/-! ### One token -/

/-- The generation of an engine. -/
def State.generation (e : Engine) (s : State) : Generation :=
  match e with
  | .enc => s.enc.dict
  | .dec => s.dec.table

theorem State.Inv.generation_domain {s : State} (h : s.Inv) (e : Engine) : (s.generation e).Domain := by
  cases e
  exacts [h.enc.domain, h.dec.domain]

/-- A DATA token that the encode engine accepts inserts nothing or one sequence (R142). -/
theorem Encoder.Inv.data_dict {e e' : Encoder} (h : e.Inv) (ho : e.state = .empty ∨ e.state = .run) {c : Byte}
    (hdata : e.data .insertThenReseed c = .ok e') :
    e'.dict = e.dict ∨ ∃ u, e'.dict = e.dict.insert .insertThenReseed u := by
  rcases ho with hempty | hrun
  · rw [Encoder.data_empty _ c e hempty] at hdata
    cases hdata
    exact .inl rfl
  · obtain ⟨u, hu⟩ := h.held hrun
    rcases Encoder.data_run c e u hrun hu with ⟨_, _, hd⟩ | ⟨_, hd⟩ <;> rw [hd] at hdata <;> cases hdata
    · exact .inl rfl
    · exact .inr ⟨_, e.miss_dict _ _ c⟩

/-- So does one that the decode engine accepts (R165). -/
theorem Decoder.data_table {d d' : Decoder} {b : Byte} (hdata : d.data .insertThenReseed .literal b = .ok d') :
    d'.table = d.table ∨ ∃ u, d'.table = d.table.insert .insertThenReseed u := by
  rw [Decoder.data] at hdata
  obtain ⟨x, hu | ⟨k, hu⟩⟩ := d.unpack_eq b <;> rw [hu] at hdata
  · cases hdata; exact .inl rfl
  · obtain ⟨_, _, _, ⟨_, htable, _⟩ | ⟨_, w, _, _, htable, _⟩⟩ := Decoder.decodeCode_ok _ k d' hdata
    · exact .inl htable
    · exact .inr ⟨w, htable⟩

/-- What a token can do to its engine's generation: nothing, one insertion (DATA), or START's seed. -/
theorem State.Inv.takeToken_generation {s s' : State} (h : s.Inv) {e : Engine} {t : Token}
    (htake : Machine.takeToken e t s = .next s') :
    s'.generation e = s.generation e ∨
    (t.extractLsb' 8 2 = 0#2 ∧ ∃ u, s'.generation e = (s.generation e).insert .insertThenReseed u) ∨
    (t = 0x200#10 ∧ s'.generation e = Generation.reset) := by
  cases e with
  | enc =>
    rcases takeToken_enc_cases t s s' htake with
      rfl | ⟨_, rfl⟩ | ⟨hstart, rfl⟩ | ⟨_, _, rfl⟩ | ⟨hdata, ho, e', hd, rfl⟩
    · exact .inl rfl
    · exact .inl rfl
    · exact .inr (.inr ⟨hstart, rfl⟩)
    · exact .inl s.enc.finish_dict
    · exact (h.enc.data_dict ho hd).imp_right fun hinsert => .inl ⟨hdata, hinsert⟩
  | dec =>
    rcases takeToken_dec_cases t s s' htake with
      rfl | ⟨_, rfl⟩ | ⟨hstart, rfl⟩ | ⟨_, _, rfl⟩ | ⟨hdata, _, d', hd, rfl⟩
    · exact .inl rfl
    · exact .inl rfl
    · exact .inr (.inr ⟨hstart, rfl⟩)
    · exact .inl rfl
    · exact (Decoder.data_table hd).imp_right fun hinsert => .inl ⟨hdata, hinsert⟩

theorem next_add_one {k : Code} (h : k.toNat < 4095) : (k + 1#12).toNat = k.toNat + 1 := by
  simp only [BitVec.toNat_add, BitVec.toNat_ofNat]
  omega

/-- Settles O45: NEXT moves by the one insertion of a DATA token, or by START. -/
theorem counterMovesByOne : Obligations.CounterMovesByOne := by
  intro e t s s' g g' h htake hg
  obtain ⟨rfl, rfl⟩ : g = s.generation e ∧ g' = s'.generation e := by
    rcases hg with ⟨rfl, rfl, rfl⟩ | ⟨rfl, rfl, rfl⟩ <;> exact ⟨rfl, rfl⟩
  rcases h.takeToken_generation htake with hkept | ⟨hdata, u, hinsert⟩ | ⟨hstart, hseed⟩
  · exact .inl hkept
  · rw [hinsert]
    rcases Generation.insert_cases (h.generation_domain e) u with ⟨hlt, hins⟩ | ⟨hlast, hins⟩ <;> rw [hins]
    · exact .inr (.inl ⟨next_add_one hlt, rfl⟩)
    · exact .inr (.inr (.inl ⟨(code_eq_limit_iff _).2 hlast, rfl, rfl, hdata⟩))
  · rw [hseed]
    exact .inr (.inr (.inr ⟨hstart, rfl, rfl⟩))

/-! ### The encode engine's counts over a stream -/

/-- The counters of an encode engine that had `sent` items out and has packed `m` codewords since (R43 item 5, R108). -/
structure Encoder.Counts (e : Encoder) (sent m : Nat) : Prop where
  next : e.dict.next.toNat = 256 + m % 3840
  gen  : e.dict.gen = BitVec.ofNat 32 (m / 3840)
  par  : e.par = decide (m % 2 = 1)
  out  : e.out.length = sent + 3 * (m / 2) + m % 2

theorem Encoder.counts_start (e : Encoder) : e.start.Counts e.out.length 0 := ⟨rfl, rfl, rfl, rfl⟩

/-- The counters are those of the engine's generation, parity and output alone. -/
theorem Encoder.Counts.congr {e e' : Encoder} {sent m : Nat} (h : e.Counts sent m) (hdict : e'.dict = e.dict)
    (hpar : e'.par = e.par) (hout : e'.out = e.out) : e'.Counts sent m :=
  ⟨hdict ▸ h.next, hdict ▸ h.gen, hpar ▸ h.par, hout ▸ h.out⟩

theorem Encoder.pack_out_length (k : Code) (e : Encoder) :
    (e.pack k).out.length = e.out.length + if e.par then 2 else 1 := by
  unfold Encoder.pack
  cases e.par <;> simp [Encoder.packA, Encoder.packB]

/-- A miss packs one codeword and makes one insertion. -/
theorem Encoder.Counts.miss {e : Encoder} {sent m : Nat} (h : e.Counts sent m) (hdom : e.dict.Domain) (u : Seq)
    (c : Byte) : (e.miss .insertThenReseed u c).Counts sent (m + 1) := by
  have hpar : (e.miss .insertThenReseed u c).par = !e.par := e.pack_par e.s
  have hout : (e.miss .insertThenReseed u c).out.length = _ := e.pack_out_length e.s
  obtain ⟨hnext, hgen, hparity, hsent⟩ := h
  have hnow : (e.miss .insertThenReseed u c).par = decide ((m + 1) % 2 = 1) := by
    rw [hpar, hparity, ← decide_not]
    exact decide_eq_decide.2 (by omega)
  have hlength : (e.miss .insertThenReseed u c).out.length = sent + 3 * ((m + 1) / 2) + (m + 1) % 2 := by
    rw [hout, hparity, hsent]
    rcases Nat.mod_two_eq_zero_or_one m with hm | hm <;> simp [hm] <;> omega
  rcases Generation.insert_cases hdom u with ⟨hlt, hins⟩ | ⟨hlast, hins⟩
  · refine ⟨?_, ?_, hnow, hlength⟩ <;> rw [Encoder.miss_dict, hins]
    · exact (next_add_one hlt).trans (by omega)
    · exact hgen.trans (congrArg _ (by omega))
  · refine ⟨?_, ?_, hnow, hlength⟩ <;> rw [Encoder.miss_dict, hins]
    · exact (by omega : 256 = 256 + (m + 1) % 3840)
    · rw [hgen, ← BitVec.ofNat_add]
      exact congrArg (BitVec.ofNat 32) (by omega)

/-- The bytes of a stream, taken while the engine holds a match, add the codewords they pack to the counts. -/
theorem Encoder.Matches.takeTokens_counts {s : State} {u : Seq} (h : s.enc.Matches u) {sent m : Nat}
    (hcounts : s.enc.Counts sent m) (bs : List Byte) :
    ∃ t, takeTokens .enc (bs.map (tokenOf 0b00#2)) s = .next t ∧
      t.enc.Counts sent (m + (codesOver (bs.map (tokenOf 0b00#2)) s).length) := by
  induction bs generalizing s u m with
  | nil => exact ⟨s, rfl, hcounts⟩
  | cons c bs ih =>
    rw [List.map_cons]
    rcases h.data_cases c with ⟨k, htake, hpacked, hm⟩ | ⟨htake, hpacked, hm⟩
    · rw [takeTokens_cons htake, codesOver_cons htake, hpacked]
      exact ih (s := { s with enc := { s.enc with s := k } }) hm (hcounts.congr rfl rfl rfl)
    · rw [takeTokens_cons htake, codesOver_cons htake, hpacked, List.length_append, ← Nat.add_assoc]
      exact ih (s := { s with enc := s.enc.miss .insertThenReseed (u ++ [c]) c }) hm
        (hcounts.miss h.domain (u ++ [c]) c)

/-- A stream whose end has not come, from any state: the counters are those of the codewords packed so far. -/
theorem takeTokens_open_counts (s : State) (bs : List Byte) :
    ∃ t, takeTokens .enc (openTokens bs) s = .next t ∧
      t.enc.Counts s.enc.out.length (codesOver (openTokens bs) s).length := by
  rw [openTokens, takeTokens_cons (takeToken_encStart s), codesOver_start]
  cases bs with
  | nil => exact ⟨_, rfl, s.enc.counts_start⟩
  | cons c bs =>
    rw [List.map_cons, takeTokens_cons (takeToken_firstData _ c rfl), codesOver_firstData rfl]
    have hall := Encoder.Matches.takeTokens_counts
      (s := { s with enc := { s.enc.start with s := baseCode c, state := .run } }) (s.enc.matches_first c)
      (s.enc.counts_start.congr rfl rfl rfl) bs
    rwa [Nat.zero_add] at hall

/-- Settles O26, by induction over the bytes: each miss packs one codeword and makes one insertion. -/
theorem encoderCountsAndReseeds : Obligations.EncoderCountsAndReseeds := by
  intro s bs
  obtain ⟨t, htake, hnext, hgen, _, hout⟩ := takeTokens_open_counts s bs
  exact ⟨t, htake, hnext, hgen, hout⟩

end Sys2Proof.Machine
end

section
/-! SUPPORT. The status register, field by field (R39), and the values after reset (R42). -/

namespace Sys2Proof.Machine

/-! ### The fields of STATUS -/

section
variable (n : Code) (p : BitVec 1) (g : BitVec 2) (e : BitVec 3) (s : BitVec 2)

/-- A field of STATUS is read off the word as a number: `len` bits from bit `start` up. -/
theorem statusWord_field {start len : Nat} {x : BitVec len}
    (h : (n.toNat * 65536 + p.toNat * 128 + g.toNat * 32 + e.toNat * 4 + s.toNat) / 2 ^ start % 2 ^ len = x.toNat) :
    (statusWord n p g e s).extractLsb' start len = x := by
  apply BitVec.eq_of_toNat_eq
  rw [BitVec.extractLsb'_toNat, statusWord_toNat, Nat.shiftRight_eq_div_pow, h]

@[simp] theorem statusWord_state : (statusWord n p g e s).extractLsb' 0 2 = s := statusWord_field n p g e s (by omega)

@[simp] theorem statusWord_err : (statusWord n p g e s).extractLsb' 2 3 = e := statusWord_field n p g e s (by omega)

@[simp] theorem statusWord_groupPos : (statusWord n p g e s).extractLsb' 5 2 = g :=
  statusWord_field n p g e s (by omega)

@[simp] theorem statusWord_parity : (statusWord n p g e s).extractLsb' 7 1 = p := statusWord_field n p g e s (by omega)

@[simp] theorem statusWord_next : (statusWord n p g e s).extractLsb' 16 12 = n := statusWord_field n p g e s (by omega)

@[simp] theorem statusWord_low_reserved : (statusWord n p g e s).extractLsb' 8 8 = 0#8 :=
  statusWord_field n p g e s (by rw [BitVec.toNat_ofNat]; omega)

@[simp] theorem statusWord_high_reserved : (statusWord n p g e s).extractLsb' 28 4 = 0#4 :=
  statusWord_field n p g e s (by rw [BitVec.toNat_ofNat]; omega)

end

theorem State.status_enc (s : State) : s.status .enc = statusWord s.enc.dict.next (BitVec.ofBool s.enc.par)
    ((BitVec.ofBool s.enc.par).setWidth 2) s.enc.err.bits s.enc.state.bits := rfl

theorem State.status_dec (s : State) : s.status .dec = statusWord s.dec.table.next
    (BitVec.ofBool (s.dec.phase == .byte2)) s.dec.phase.bits s.dec.err.bits s.dec.state.bits := rfl

/-- Settles O55: the fields of the word are the ones it is put together from. -/
theorem statusFields : Obligations.StatusFields := by
  intro s
  have hpos : (BitVec.ofBool s.enc.par).setWidth 2 = if s.enc.par then 1#2 else 0#2 := by cases s.enc.par <;> rfl
  have hpar : BitVec.ofBool s.enc.par = if s.enc.par then 1#1 else 0#1 := by cases s.enc.par <;> rfl
  have hphase : BitVec.ofBool (s.dec.phase == .byte2) = if s.dec.phase = .byte2 then 1#1 else 0#1 := by
    cases s.dec.phase <;> rfl
  rw [State.status_enc, State.status_dec]
  refine ⟨statusWord_state .., statusWord_err .., (statusWord_groupPos ..).trans hpos,
    (statusWord_parity ..).trans hpar, statusWord_low_reserved .., statusWord_next .., statusWord_high_reserved ..,
    statusWord_state .., statusWord_err .., statusWord_groupPos .., (statusWord_parity ..).trans hphase,
    statusWord_low_reserved .., statusWord_next .., statusWord_high_reserved ..⟩

/-! ### Encodings and reset values -/

/-- Settles O56: each code by its row of the encoding, and STATUS after reset by its fields. -/
theorem fieldEncodings : Obligations.FieldEncodings :=
  ⟨rfl, rfl, rfl, rfl, rfl, rfl, rfl, rfl, rfl, rfl, rfl, rfl, rfl, by decide, by decide⟩

/-- In the generation after reset a base code names its own byte, and no other code anything (R100). -/
theorem Generation.seq_reset (k : Code) :
    Generation.reset.seq k = if k.toNat < 256 then some [k.extractLsb' 0 8] else none := Generation.seq_empty _ _ k

/-- START writes the reset values, but for what is already out (R141, R161). -/
theorem Encoder.start_eq_reset (e : Encoder) : e.start = { Encoder.reset with out := e.out } := rfl

theorem Decoder.start_eq_reset (d : Decoder) : d.start = { Decoder.reset with out := d.out } := rfl

theorem exec_encStart (s : State) : exec .encStart s = .next { s with enc := s.enc.start } := rfl

theorem exec_decStart (s : State) : exec .decStart s = .next { s with dec := s.dec.start } := rfl

/-- Settles O59: the elements of state one by one, then the two generations, then START. -/
theorem resetValues : Obligations.ResetValues := by
  refine ⟨rfl, rfl, rfl, rfl, rfl, rfl, rfl, rfl, rfl, rfl, rfl, rfl, rfl, rfl, rfl, rfl, rfl,
    Generation.seq_reset, Generation.seq_reset, fun s => ⟨?_, ?_⟩⟩
  · rw [exec_encStart, Encoder.start_eq_reset]; rfl
  · rw [exec_decStart, Decoder.start_eq_reset]; rfl

end Sys2Proof.Machine
end

section
/-! SUPPORT. What a token does to the output of its engine (R53, R66) and to the entry storages (R50), and the register
port (R57). -/

namespace Sys2Proof.Machine

/-! ### What DATA and END do to an engine -/

/-- A DATA token that the encode engine accepts starts the match, moves it to another code, or packs it and inserts
(R142). -/
theorem Encoder.data_ok_cases {r : ReseedReading} {c : Byte} {e e' : Encoder} (h : e.data r c = .ok e') :
    e' = { e with s := baseCode c, state := .run } ∨ (∃ k, e' = { e with s := k }) ∨ ∃ u, e' = e.miss r u c := by
  unfold Encoder.data at h
  split at h
  · cases h; exact .inl rfl
  · split at h
    · cases h
    · split at h <;> cases h
      · exact .inr (.inl ⟨_, rfl⟩)
      · exact .inr (.inr ⟨_, rfl⟩)

theorem Encoder.pack_appends (k : Code) (e : Encoder) :
    ∃ bs : List Byte, bs.length ≤ 2 ∧ (e.pack k).out = e.out ++ bs.map .byte := by
  unfold Encoder.pack
  split
  · exact ⟨[_, _], le_rfl, rfl⟩
  · exact ⟨[_], Nat.le_succ 1, rfl⟩

theorem Encoder.data_appends {r : ReseedReading} {c : Byte} {e e' : Encoder} (h : e.data r c = .ok e') :
    ∃ bs : List Byte, bs.length ≤ 2 ∧ e'.out = e.out ++ bs.map .byte := by
  rcases Encoder.data_ok_cases h with rfl | ⟨_, rfl⟩ | ⟨_, rfl⟩
  · exact ⟨[], by decide, (List.append_nil _).symm⟩
  · exact ⟨[], by decide, (List.append_nil _).symm⟩
  · exact e.pack_appends e.s

/-- END outside RUN has no match to pack, and flushes. -/
theorem Encoder.finish_out_of_not_run {e : Encoder} (h : e.state ≠ .run) :
    e.finish.out = e.out ++ (wireFrom e.par e.nib []).map .byte ++ [.eos] := by
  rw [← Encoder.packFlush_out]
  simp [Encoder.finish, h]

/-- END puts out the match and what waits of a group, then Eos (R143). -/
theorem Encoder.finish_appends (e : Encoder) :
    ∃ bs : List Byte, bs.length ≤ 3 ∧ e.finish.out = e.out ++ (bs.map .byte ++ [.eos]) := by
  by_cases hrun : e.state = .run
  · refine ⟨wireFrom e.par e.nib [e.s], ?_, by rw [Encoder.finish_out_run hrun, List.append_assoc]⟩
    cases e.par <;> simp [wireFrom]
  · refine ⟨wireFrom e.par e.nib [], ?_, by rw [Encoder.finish_out_of_not_run hrun, List.append_assoc]⟩
    cases e.par <;> simp [wireFrom]

/-- DEC.DATA puts out nothing, the byte of a first codeword, a sequence that was inserted, or one that the table holds. -/
theorem Decoder.data_appends {d d' : Decoder} (hb : d.table.Bounded) {b : Byte}
    (h : d.data .insertThenReseed .literal b = .ok d') :
    ∃ bs : List Byte, bs.length ≤ maxSeqLen ∧ d'.out = d.out ++ bs.map .byte := by
  rw [Decoder.data] at h
  obtain ⟨x, hu | ⟨k, hu⟩⟩ := d.unpack_eq b <;> rw [hu] at h
  · cases h; exact ⟨[], Nat.zero_le _, (List.append_nil _).symm⟩
  · obtain ⟨_, _, _, ⟨_, _, hout⟩ | ⟨_, w, u, hw, _, hout, _, hsource⟩⟩ := Decoder.decodeCode_ok _ k d' h
    · exact ⟨[codeLow8 k], Nat.le_add_left 1 3840, hout⟩
    · refine ⟨u, ?_, hout⟩
      rcases hsource with rfl | hentry
      · exact hw
      · exact (hb.seq_length hentry).2

/-! ### The output channels -/

/-- The most bytes that one DATA token puts out (R66). -/
def maxDataBytes : Engine → Nat
  | .enc => 2
  | .dec => maxSeqLen

/-- The most bytes that END puts out (R66). -/
def maxEndBytes : Engine → Nat
  | .enc => 3
  | .dec => 0

/-- What a token does to the output of its engine: nothing, or bytes appended by DATA, or bytes and Eos by END. -/
theorem State.Inv.takeToken_output {s s' : State} (h : s.Inv) {e : Engine} {t : Token}
    (htake : Machine.takeToken e t s = .next s') :
    s'.output e = s.output e ∨
    (t.extractLsb' 8 2 = 0#2 ∧ ∃ bs : List Byte, bs.length ≤ maxDataBytes e ∧
      s'.output e = s.output e ++ bs.map .byte) ∨
    (t = 0x100#10 ∧ ∃ bs : List Byte, bs.length ≤ maxEndBytes e ∧
      s'.output e = s.output e ++ (bs.map .byte ++ [.eos])) := by
  cases e with
  | enc =>
    rcases takeToken_enc_cases t s s' htake with
      rfl | ⟨_, rfl⟩ | ⟨_, rfl⟩ | ⟨hend, _, rfl⟩ | ⟨hdata, _, e', hd, rfl⟩
    · exact .inl rfl
    · exact .inl rfl
    · exact .inl rfl
    · exact .inr (.inr ⟨hend, s.enc.finish_appends⟩)
    · exact .inr (.inl ⟨hdata, Encoder.data_appends hd⟩)
  | dec =>
    rcases takeToken_dec_cases t s s' htake with
      rfl | ⟨_, rfl⟩ | ⟨_, rfl⟩ | ⟨hend, _, rfl⟩ | ⟨hdata, _, d', hd, rfl⟩
    · exact .inl rfl
    · exact .inl rfl
    · exact .inl rfl
    · exact .inr (.inr ⟨hend, [], le_rfl, rfl⟩)
    · exact .inr (.inl ⟨hdata, Decoder.data_appends h.dec.bounded hd⟩)

@[simp] theorem State.withEngine_output (e : Engine) (x s : State) : (x.withEngine e s).output e = s.output e := by
  cases e <;> rfl

@[simp] theorem State.withEngine_generation (e : Engine) (x s : State) :
    (x.withEngine e s).generation e = s.generation e := by cases e <;> rfl

/-- After a token of engine `e` any other engine is as it was (R20). -/
theorem withEngine_of_takeToken {e f : Engine} {t : Token} {s s' : State} (h : takeToken e t s = .next s')
    (hne : f ≠ e) : s'.withEngine f s = s' := by
  cases e <;> cases f
  · exact absurd rfl hne
  · rw [State.withEngine, ← takeToken_enc_dec h]
  · rw [State.withEngine, ← takeToken_dec_enc h]
  · exact absurd rfl hne

theorem takeToken_output_other {e f : Engine} {t : Token} {s s' : State} (h : takeToken e t s = .next s')
    (hne : f ≠ e) : s'.output f = s.output f := by
  rw [← withEngine_of_takeToken h hne, State.withEngine_output]

theorem takeToken_generation_other {e f : Engine} {t : Token} {s s' : State} (h : takeToken e t s = .next s')
    (hne : f ≠ e) : s'.generation f = s.generation f := by
  rw [← withEngine_of_takeToken h hne, State.withEngine_generation]

/-- END is no DATA token. -/
theorem ne_end_of_data {t : Token} (h : t.extractLsb' 8 2 = 0#2) : t ≠ 0x100#10 := by
  rintro rfl
  exact absurd h (by decide)

/-- Settles O51, by what a token does to the output of its engine: nothing, DATA's bytes, or END's bytes and Eos. -/
theorem outputOnlyGrows : Obligations.OutputOnlyGrows := by
  intro e t s s' h htake
  have hother : ∀ f, f ≠ e → s'.output f = s.output f := fun f => takeToken_output_other htake
  rcases h.takeToken_output htake with hkept | ⟨hdata, bs, hlen, hout⟩ | ⟨hend, bs, hlen, hout⟩
  · exact ⟨[], [], by simpa using hkept, hother, by simp⟩
  · have hne := ne_end_of_data hdata
    refine ⟨bs, [], by simpa using hout, hother, .inl rfl, fun _ => .inl hdata, ?_,
      fun _ hend => absurd hend hne, ?_, fun _ hend => absurd hend hne⟩
    · rintro rfl _; exact hlen
    · rintro rfl _; exact hlen
  · have hne := fun hdata => ne_end_of_data hdata hend
    refine ⟨bs, [.eos], hout, hother, .inr ⟨rfl, hend⟩, fun _ => .inr hend,
      fun _ hdata => absurd hdata hne, ?_, fun _ hdata => absurd hdata hne, ?_⟩
    · rintro rfl _; exact hlen
    · rintro rfl _; exact List.length_eq_zero_iff.1 (Nat.le_zero.1 hlen)

/-! ### The entry storages -/

/-- The entry storage of each engine is in canonical form. -/
def State.Canonical (s : State) : Prop := ∀ e, Memory.wf (s.generation e).entries = true

theorem Encoder.data_wf {r : ReseedReading} {c : Byte} {e e' : Encoder} (h : e.data r c = .ok e')
    (hwf : Memory.wf e.dict.entries = true) : Memory.wf e'.dict.entries = true := by
  rcases Encoder.data_ok_cases h with rfl | ⟨_, rfl⟩ | ⟨u, rfl⟩
  · exact hwf
  · exact hwf
  · rw [Encoder.miss_dict]; exact Generation.insert_wf r u e.dict hwf

theorem Decoder.data_wf {b : Byte} {d d' : Decoder} (h : d.data .insertThenReseed .literal b = .ok d')
    (hwf : Memory.wf d.table.entries = true) : Memory.wf d'.table.entries = true := by
  rcases Decoder.data_table h with htable | ⟨u, htable⟩ <;> rw [htable]
  · exact hwf
  · exact Generation.insert_wf _ u d.table hwf

/-- A token keeps the canonical form of its engine's storage: only DATA inserts, and START empties it. -/
theorem takeToken_wf {e : Engine} {t : Token} {s s' : State} (htake : takeToken e t s = .next s')
    (hwf : Memory.wf (s.generation e).entries = true) : Memory.wf (s'.generation e).entries = true := by
  cases e with
  | enc =>
    rcases takeToken_enc_cases t s s' htake with rfl | ⟨_, rfl⟩ | ⟨_, rfl⟩ | ⟨_, _, rfl⟩ | ⟨_, _, e', hd, rfl⟩
    · exact hwf
    · exact hwf
    · exact s.enc.dict.seed_wf
    · rw [State.generation, Encoder.finish_dict]; exact hwf
    · exact Encoder.data_wf hd hwf
  | dec =>
    rcases takeToken_dec_cases t s s' htake with rfl | ⟨_, rfl⟩ | ⟨_, rfl⟩ | ⟨_, _, rfl⟩ | ⟨_, _, d', hd, rfl⟩
    · exact hwf
    · exact hwf
    · exact s.dec.table.seed_wf
    · exact hwf
    · exact Decoder.data_wf hd hwf

theorem State.Canonical.takeToken {s s' : State} (h : s.Canonical) {e : Engine} {t : Token}
    (htake : Machine.takeToken e t s = .next s') : s'.Canonical := by
  intro f
  by_cases hf : f = e
  · subst hf; exact takeToken_wf htake (h f)
  · rw [takeToken_generation_other htake hf]; exact h f

/-- The canonical form says nothing of the channels or the schedule. -/
theorem State.Canonical.of_engines {s s' : State} (h : s.Canonical) (henc : s'.enc = s.enc) (hdec : s'.dec = s.dec) :
    s'.Canonical := by
  intro e
  cases e with
  | enc => rw [State.generation, henc]; exact h .enc
  | dec => rw [State.generation, hdec]; exact h .dec

theorem State.Canonical.step {s s' : State} (h : s.Canonical) (hstep : Machine.step s = .next s') : s'.Canonical := by
  rcases step_cases s with ⟨hidle, _⟩ | ⟨e, t, ts, _, htake⟩
  · cases hidle.symm.trans hstep
    exact h.of_engines rfl rfl
  · have hturn : (State.setChannel e ts { s with sched := s.sched.tail }).Canonical := by
      cases e <;> exact h.of_engines rfl rfl
    exact hturn.takeToken (htake.symm.trans hstep)

/-- Settles O54: a step takes one token or none, and a token inserts once, seeds, or leaves the storage as it is. -/
theorem stepKeepsCanonicalStorage : Obligations.StepKeepsCanonicalStorage := by
  intro s t henc hdec hstep
  have h : s.Canonical := fun e => by cases e; exacts [henc, hdec]
  have ht := h.step hstep
  exact ⟨ht .enc, ht .dec⟩

/-! ### The register port -/

/-- The base address of an engine's register block (R8, R56). -/
def blockBase (b : Bases) : Engine → Nat
  | .enc => b.enc
  | .dec => b.dec

/-- At legal bases every address of a block selects its engine and offset: the two blocks do not overlap. -/
theorem blockOf_blockBase {b : Bases} (hb : basesWf b = true) (e : Engine) {offset : Nat} (ho : offset < 8) :
    blockOf b (blockBase b e + offset) = some (e, offset) := by
  simp only [basesWf, Bool.and_eq_true, Bool.or_eq_true, decide_eq_true_eq] at hb
  obtain ⟨_, hdisjoint⟩ := hb
  cases e with
  | enc =>
    rw [blockBase, blockOf, if_pos (by omega), Nat.add_sub_cancel_left]
  | dec =>
    rw [blockBase, blockOf, if_neg (by omega), if_pos (by omega), Nat.add_sub_cancel_left]

theorem busRead_blockBase {b : Bases} (hb : basesWf b = true) (e : Engine) {offset : Nat} (ho : offset < 8)
    (width : Nat) (s : State) : busRead b (blockBase b e + offset) width s = some (s.blockRead e offset width) := by
  rw [busRead, blockOf_blockBase hb e ho]

theorem State.blockRead_status (e : Engine) (s : State) : s.blockRead e 0 32 = s.status e := rfl

theorem State.blockRead_genReg (e : Engine) (s : State) : s.blockRead e 4 32 = s.genReg e := rfl

/-- Any other width or offset reads 0. -/
theorem State.blockRead_other {offset width : Nat} (h : ¬ (width = 32 ∧ (offset = 0 ∨ offset = 4))) (e : Engine)
    (s : State) : s.blockRead e offset width = 0#32 := by
  rw [State.blockRead, if_neg (by tauto), if_neg (by tauto)]

/-- Settles O57: a read in a block is a read of its engine at the offset, and a write is ignored. -/
theorem registerPort : Obligations.RegisterPort := by
  intro b s hb
  have hstatus (e : Engine) : busRead b (blockBase b e) 32 s = some (s.status e) := by
    rw [← s.blockRead_status e]; exact busRead_blockBase hb e (offset := 0) (by decide) 32 s
  have hgen (e : Engine) : busRead b (blockBase b e + 4) 32 s = some (s.genReg e) := by
    rw [← s.blockRead_genReg e]; exact busRead_blockBase hb e (offset := 4) (by decide) 32 s
  refine ⟨hstatus .enc, hgen .enc, hstatus .dec, hgen .dec, fun base offset width hbase ho hother => ?_,
    fun _ _ _ => rfl⟩
  obtain ⟨e, rfl⟩ : ∃ e, base = blockBase b e := by
    rcases hbase with rfl | rfl
    · exact ⟨.enc, rfl⟩
    · exact ⟨.dec, rfl⟩
  rw [busRead_blockBase hb e ho, State.blockRead_other hother]

end Sys2Proof.Machine
end

section
/-! SUPPORT. Tokens, instructions and the words of the opcode table (R70, R71, R73), and the lines of a program (R80,
R81). -/

namespace Sys2Proof.Machine

/-! ### Tokens and instructions -/

@[simp] theorem encode_dataOf (e : Engine) (c : Byte) : encode (dataOf e c) = tokenOf 0b00#2 c := by cases e <;> rfl

@[simp] theorem encode_endOf (e : Engine) : encode (endOf e) = 0x100#10 := by cases e <;> rfl

@[simp] theorem encode_startOf (e : Engine) : encode (startOf e) = 0x200#10 := by cases e <;> rfl

@[simp] theorem encode_abortOf (e : Engine) : encode (abortOf e) = 0x300#10 := by cases e <;> rfl

theorem decode_encode (i : Instr) : decode i.engine (encode i) = .ok i := by
  cases i with
  | encData c => exact decode_data .enc c
  | decData b => exact decode_data .dec b
  | encEnd | encStart | encAbort | decEnd | decStart | decAbort => decide

theorem encode_of_decode {e : Engine} {t : Token} {i : Instr} (h : decode e t = .ok i) : encode i = t := by
  rcases decode_kinds t with ⟨_, ht, hd⟩ | ⟨rfl, hd⟩ | ⟨rfl, hd⟩ | ⟨rfl, hd⟩ | ⟨_, _, hd⟩
  case inr.inr.inr.inr => obtain ⟨x, hx⟩ := hd e; cases hx.symm.trans h
  all_goals cases (hd e).symm.trans h
  · exact (encode_dataOf e _).trans ht.symm
  · exact encode_endOf e
  · exact encode_startOf e
  · exact encode_abortOf e

/-- A token decodes to the one instruction of its engine that it encodes. -/
theorem decode_eq_ok_iff {e : Engine} {t : Token} {i : Instr} :
    decode e t = .ok i ↔ t = encode i ∧ i.engine = e := by
  constructor
  · exact fun h => ⟨(encode_of_decode h).symm, engine_of_decode h⟩
  · rintro ⟨rfl, rfl⟩
    exact decode_encode i

/-- Settles O2: every row of the opcode map is its own inverse, and a token that decodes is in one of the rows. -/
theorem decodeEncodeAgree : Obligations.DecodeEncodeAgree :=
  ⟨decode_encode, fun _ _ _ h => ⟨encode_of_decode h, engine_of_decode h⟩⟩

/-- Settles O1: each word is the token of its instruction, or has a nonzero payload. -/
theorem tokenWordsReadRight : Obligations.TokenWordsReadRight :=
  ⟨decode_encode (.encData 0x41#8), decode_encode (.decData 0xFF#8), decode_encode .encEnd, decode_encode .encStart,
    decode_encode .encAbort, decode_encode .decEnd, decode_encode .decStart, decode_encode .decAbort,
    by decide, by decide, by decide⟩

/-- An operation without an operand has one encoding. -/
theorem decode_eq_ok_iff_of_encode {i : Instr} {t₀ : Token} (hi : encode i = t₀) (t : Token) :
    decode i.engine t = .ok i ↔ t = t₀ := by
  rw [decode_eq_ok_iff, hi]
  exact and_iff_left rfl

/-- Settles O3: a DATA token is the token of its own payload, and a control token is the one its
instruction encodes to. -/
theorem opcodeMap : Obligations.OpcodeMap := by
  intro t
  refine ⟨fun hop => ?_, decode_eq_ok_iff_of_encode (encode_endOf .enc) t,
    decode_eq_ok_iff_of_encode (encode_endOf .dec) t, decode_eq_ok_iff_of_encode (encode_startOf .enc) t,
    decode_eq_ok_iff_of_encode (encode_startOf .dec) t, decode_eq_ok_iff_of_encode (encode_abortOf .enc) t,
    decode_eq_ok_iff_of_encode (encode_abortOf .dec) t⟩
  have ht : t = tokenOf 0b00#2 (payloadOf t) := token_eq t _ _ hop rfl
  exact ⟨decode_eq_ok_iff.2 ⟨ht, rfl⟩, decode_eq_ok_iff.2 ⟨ht, rfl⟩⟩

/-! ### Reserved tokens -/

/-- A token whose two fields are nonzero is none of the legal ones (R73). -/
theorem decode_reserved {t : Token} (hop : t.extractLsb' 8 2 ≠ 0#2) (hp : payloadOf t ≠ 0#8) (e : Engine) :
    ∃ x, decode e t = .error x := by
  rcases decode_kinds t with ⟨hdata, _, _⟩ | ⟨rfl, _⟩ | ⟨rfl, _⟩ | ⟨rfl, _⟩ | ⟨_, _, hd⟩
  · exact absurd hdata hop
  · exact absurd (by decide) hp
  · exact absurd (by decide) hp
  · exact absurd (by decide) hp
  · exact hd e

/-- Any count over the 1024 tokens is a count over the 256 payloads of each of the four OPs. -/
theorem countP_tokens (p : Token → Bool) : ((List.range 1024).map (BitVec.ofNat 10)).countP p =
    (List.range 256).countP (fun n => p (tokenOf 0b00#2 (BitVec.ofNat 8 n))) +
    (List.range 256).countP (fun n => p (tokenOf 0b01#2 (BitVec.ofNat 8 n))) +
    (List.range 256).countP (fun n => p (tokenOf 0b10#2 (BitVec.ofNat 8 n))) +
    (List.range 256).countP (fun n => p (tokenOf 0b11#2 (BitVec.ofNat 8 n))) := by
  have block (op : BitVec 2) : (List.range 256).countP (fun n => p (tokenOf op (BitVec.ofNat 8 n))) =
      (List.range 256).countP (fun n => p (BitVec.ofNat 10 (op.toNat * 256 + n))) := by
    refine List.countP_congr fun n hn => ?_
    have htoken : tokenOf op (BitVec.ofNat 8 n) = BitVec.ofNat 10 (op.toNat * 256 + n) := by
      apply BitVec.eq_of_toNat_eq
      have := List.mem_range.1 hn
      have := op.isLt
      rw [tokenOf_toNat, BitVec.toNat_ofNat, BitVec.toNat_ofNat]
      omega
    rw [htoken]
  have split : List.range 1024 = List.range 256 ++ (List.range 256).map (256 + ·) ++
      (List.range 256).map (512 + ·) ++ (List.range 256).map (768 + ·) := by
    rw [← List.range_add, ← List.range_add, ← List.range_add]
  rw [block, block, block, block, split]
  simp [List.countP_map, Function.comp_def, Nat.add_assoc]

/-- One payload of the 256 is zero. -/
theorem countP_payload_zero : (List.range 256).countP (fun n => BitVec.ofNat 8 n == 0#8) = 1 := by
  have hzero : (List.range 256).countP (fun n => BitVec.ofNat 8 n == 0#8) = (List.range 256).count 0 := by
    refine List.countP_congr fun n hn => ?_
    have := List.mem_range.1 hn
    simp only [beq_iff_eq, ← BitVec.toNat_inj, BitVec.toNat_ofNat]
    omega
  rw [hzero]
  exact List.count_eq_one_of_mem List.nodup_range (by simp)

/-- The other 255 are not. -/
theorem countP_payload_nonzero : (List.range 256).countP (fun n => BitVec.ofNat 8 n != 0#8) = 255 := by
  have hall := List.length_eq_countP_add_countP (fun n => BitVec.ofNat 8 n == 0#8) (l := List.range 256)
  rw [countP_payload_zero, List.length_range] at hall
  have hnot : (List.range 256).countP (fun n => BitVec.ofNat 8 n != 0#8) =
      (List.range 256).countP (fun n => decide ¬(BitVec.ofNat 8 n == 0#8) = true) :=
    List.countP_congr fun n _ => by simp
  omega

/-- Taking a reserved token raises BAD_TOKEN outside ERROR. -/
theorem takeToken_badToken {e : Engine} {t : Token} {s : State} {x : DecodeError} (hx : decode e t = .error x)
    (hs : s.streamState e ≠ .error) : takeToken e t s = .next (s.raiseFault e .badToken) := by
  rw [takeToken_reserved e t s x hx]
  rcases s.takeReserved_cases e with ⟨herr, _⟩ | ⟨_, hr⟩
  · exact absurd herr hs
  · rw [hr]

/-- Taking a reserved token changes nothing in ERROR. -/
theorem takeToken_reserved_ignored {e : Engine} {t : Token} {s : State} {x : DecodeError}
    (hx : decode e t = .error x) (hs : s.streamState e = .error) : takeToken e t s = .next s := by
  rw [takeToken_reserved e t s x hx]
  rcases s.takeReserved_cases e with ⟨_, hr⟩ | ⟨hne, _⟩
  · rw [hr]
  · exact absurd hs hne

/-- Settles O4: a token with two nonzero fields decodes to nothing, and the counts are those of the payloads of
each OP. -/
theorem reservedTokens : Obligations.ReservedTokens := by
  have payload (op : BitVec 2) (c : Byte) : (tokenOf op c).extractLsb' 0 8 = c := payloadOf_tokenOf op c
  refine ⟨fun e t s hop hp => ?_, ?_, ?_, ?_⟩
  · obtain ⟨x, hx⟩ := decode_reserved hop hp e
    exact ⟨fun i hi => (nomatch hx.symm.trans hi), takeToken_badToken hx, takeToken_reserved_ignored hx⟩
  · rw [countP_tokens]; simp [op_tokenOf]
  · rw [countP_tokens]; simp [op_tokenOf, payload, countP_payload_zero]
  · rw [countP_tokens]; simp [op_tokenOf, payload, countP_payload_nonzero]

/-! ### The lines of a program -/

theorem asciiCode_eq {c : Char} {b : Byte} (hb : b.toNat = c.toNat) (hc : c.toNat < 128) : asciiCode c = some b := by
  rw [asciiCode, if_pos hc, ← hb, BitVec.ofNat_toNat, BitVec.setWidth_eq]

/-- The codes of a text are the bytes with the characters' numbers. -/
theorem asciiBytes_eq {cs : List Char} {bs : List Byte} (h : bs.map BitVec.toNat = cs.map Char.toNat)
    (hcs : ∀ c ∈ cs, c.toNat < 128) : asciiBytes cs = some bs := by
  induction cs generalizing bs with
  | nil => rw [List.map_eq_nil_iff.1 h]; rfl
  | cons c cs ih =>
    obtain ⟨b, bs, rfl, hb, hbs⟩ := List.map_eq_cons_iff.1 h
    rw [asciiBytes, asciiCode_eq hb (hcs c List.mem_cons_self), ih hbs fun x hx => hcs x (List.mem_cons_of_mem c hx)]

/-- The instructions of a stream encode to its tokens. -/
theorem encode_streamOf (e : Engine) (bs : List Byte) : (streamOf e bs).map encode = streamTokens bs := by
  simp [streamOf, streamTokens, Function.comp_def]

/-- Settles O5: each line expands as it is defined, a text by the codes of its characters. -/
theorem pseudoOperationsExpand : Obligations.PseudoOperationsExpand := by
  refine ⟨fun _ _ => rfl, fun e cs bs h hcs => ?_, fun _ => ⟨rfl, rfl⟩, encode_streamOf⟩
  rw [Line.expand, asciiBytes_eq h hcs]
  rfl

/-! ### The words of the opcode table -/

/-- A word that decodes is a token that decodes on the engine the word is tagged with. -/
theorem decodeTableWord_eq_some {n w : Nat} {i : Instr} (h : decodeTableWord n w = some i) :
    w < 2048 ∧ decode (tableEngine w) (tableToken w) = .ok i := by
  rw [decodeTableWord] at h
  split at h
  · rename_i hw
    refine ⟨hw, ?_⟩
    cases hd : decode (tableEngine w) (tableToken w) with
    | ok j => rw [hd] at h; cases h; rfl
    | error x => rw [hd] at h; cases h
  · cases h

/-- The token placed at the head of a channel, with the turn, is the one the next step takes. -/
theorem step_placeToken (e : Engine) (t : Token) (s : State) : step (s.placeToken e t) = takeToken e t s := by
  have hch : (s.placeToken e t).channel e = t :: s.channel e := by cases e <;> rfl
  obtain ⟨hturn, _⟩ := stepRunsDecodedToken _ e t _ hch
  rw [hturn s.sched rfl]
  cases e <;> rfl

/-- Settles O8: the word's token is placed, so the next step takes it, and it decodes to the instruction. -/
theorem placedWordIsNext : Obligations.PlacedWordIsNext := by
  intro s n w i h
  obtain ⟨hw, hd⟩ := decodeTableWord_eq_some h
  rw [State.withFetchWord, State.placeWord, if_pos hw, step_placeToken, takeToken_ok _ _ s i hd]

end Sys2Proof.Machine
end

section
/-! SUPPORT. The wire format as numbers and as counts (R75 to R78), and the unpack half that reads it. -/

namespace Sys2Proof.Machine

/-- Byte1 of a group as a number, whatever nibble shares it with A's low one. -/
theorem joinNibbles_codeLow4_toNat (a : Code) (m : Nibble) :
    (joinNibbles (codeLow4 a) m).toNat = 16 * (a.toNat % 16) + m.toNat := by
  rw [joinNibbles_toNat, codeLow4_toNat, Nat.mul_comm]

/-- Settles O49, by the fields of a codeword and of a byte as numbers. -/
theorem wireGroupLayout : Obligations.WireGroupLayout := by
  intro a b
  refine ⟨codeHigh8 a, joinNibbles (codeLow4 a) (codeHigh4 b), codeLow8 b, rfl, codeHigh8_toNat a, ?_,
    codeLow8_toNat b, ?_, ?_, ?_⟩
  · rw [joinNibbles_codeLow4_toNat, codeHigh4_toNat]
  · have hlone : joinNibbles (codeLow4 a) 0#4 = BitVec.ofNat 8 (16 * (a.toNat % 16)) := by
      apply BitVec.eq_of_toNat_eq
      rw [joinNibbles_codeLow4_toNat, BitVec.toNat_ofNat, BitVec.toNat_ofNat]
      omega
    rw [wirePack, hlone]
  · rw [codeA_toNat, byteHigh4_toNat]
  · rw [codeB_toNat, byteLow4_toNat]

/-- `n` codewords take 3 bytes a pair, and 2 for a lone last one (R77). -/
theorem wirePack_length : ∀ ks : List Code, (wirePack ks).length = 3 * (ks.length / 2) + 2 * (ks.length % 2)
  | [] => rfl
  | [_] => by simp [wirePack]
  | _ :: _ :: ks => by
    simp only [wirePack, List.length_cons, wirePack_length ks]
    omega

/-- `L` bytes hold 2 codewords a group, and one more when two bytes are left over (R78). -/
theorem wireUnpack_length : ∀ bs : List Byte,
    (wireUnpack bs).length = 2 * (bs.length / 3) + (if bs.length % 3 = 2 then 1 else 0)
  | [] => rfl
  | [_] => by simp [wireUnpack]
  | [_, _] => by simp [wireUnpack]
  | _ :: _ :: _ :: bs => by
    simp only [wireUnpack, List.length_cons, wireUnpack_length bs, Nat.add_mod_right, Nat.add_assoc, Nat.reduceAdd]
    omega

/-- The unpack half, from a group boundary, completes the codewords of the format, byte by byte. -/
theorem unpackedOver_eq_wireUnpack : ∀ (bs : List Byte) (d : Decoder), d.phase = .byte0 →
    unpackedOver bs d = wireUnpack bs
  | [], _, _ => rfl
  | [_], _, h => by simp [unpackedOver, wireUnpack, Decoder.unpack, h]
  | [_, _], _, h => by simp [unpackedOver, wireUnpack, Decoder.unpack, h]
  | _ :: _ :: _ :: bs, _, h => by
    simp [unpackedOver, wireUnpack, Decoder.unpack, h, unpackedOver_eq_wireUnpack bs]

/-- The format gives the packed codewords back, because the unpack half does. -/
theorem wireUnpack_wirePack (ks : List Code) : wireUnpack (wirePack ks) = ks :=
  (unpackedOver_eq_wireUnpack _ Decoder.reset rfl).symm.trans (unpackedOver_wirePack ks _ rfl)

/-- Settles O50, by induction over the groups. -/
theorem wireFormatRoundTrip : Obligations.WireFormatRoundTrip :=
  ⟨fun ks => ⟨wireUnpack_wirePack ks, wirePack_length ks⟩, wireUnpack_length, unpackedOver_eq_wireUnpack⟩

end Sys2Proof.Machine
end

section
/-! SUPPORT. R77, R120, R145: the codewords of an encoded stream, and the sequences they name. -/

namespace Sys2Proof.Machine

/-! ### What is packed, token by token -/

theorem packedOver_cons {t : Token} {s s' : State} (h : takeToken .enc t s = .next s') (ts : List Token) :
    packedOver (t :: ts) s = (s.packed t).toList.map (·, s.enc.dict) ++ packedOver ts s' := by
  rw [packedOver, h]
  cases hp : s.packed t <;> simp

/-- What is packed over tokens and more tokens is packed over the first and then over the rest. -/
theorem packedOver_append {ts : List Token} {s s' : State} (h : takeTokens .enc ts s = .next s') (us : List Token) :
    packedOver (ts ++ us) s = packedOver ts s ++ packedOver us s' := by
  induction ts generalizing s with
  | nil => cases h; rfl
  | cons t ts ih =>
    obtain ⟨s₁, htake, hrest⟩ := takeTokens_cons_next h
    rw [List.cons_append, packedOver_cons htake, packedOver_cons htake, ih hrest, List.append_assoc]

theorem codesOver_append {ts : List Token} {s s' : State} (h : takeTokens .enc ts s = .next s') (us : List Token) :
    codesOver (ts ++ us) s = codesOver ts s ++ codesOver us s' := by
  rw [codesOver, packedOver_append h, List.map_append]; rfl

theorem seqsOver_append {ts : List Token} {s s' : State} (h : takeTokens .enc ts s = .next s') (us : List Token) :
    seqsOver (ts ++ us) s = seqsOver ts s ++ seqsOver us s' := by
  rw [seqsOver, packedOver_append h, List.filterMap_append]; rfl

/-- A token that packs nothing adds no sequence. -/
theorem seqsOver_cons_of_none {t : Token} {s s' : State} (h : takeToken .enc t s = .next s')
    (hpacked : s.packed t = none) (ts : List Token) : seqsOver (t :: ts) s = seqsOver ts s' := by
  rw [seqsOver, packedOver_cons h, hpacked]; rfl

/-- A token that packs a codeword adds the sequence it names. -/
theorem seqsOver_cons_of_some {t : Token} {s s' : State} {k : Code} {u : Seq} (h : takeToken .enc t s = .next s')
    (hpacked : s.packed t = some k) (hk : s.enc.dict.seq k = some u) (ts : List Token) :
    seqsOver (t :: ts) s = u :: seqsOver ts s' := by
  rw [seqsOver, packedOver_cons h, hpacked]
  simp [hk, seqsOver]

/-! ### The bytes of a stream -/

/-- The code of a match is below NEXT, so at most 4094. -/
theorem Encoder.Matches.code_le {e : Encoder} {u : Seq} (h : e.Matches u) : e.s.toNat ≤ 4094 := by
  have := Generation.Domain.lt_of_seq h.domain h.held
  have := e.dict.next.isLt
  omega

/-- The bytes of a stream, taken while the engine holds a match: the sequences packed and the match then held are
together the match before and those bytes. -/
theorem Encoder.Matches.takeTokens_data {s : State} {u : Seq} (h : s.enc.Matches u) (bs : List Byte) :
    ∃ t v, takeTokens .enc (bs.map (tokenOf 0b00#2)) s = .next t ∧ t.enc.Matches v ∧
      (seqsOver (bs.map (tokenOf 0b00#2)) s).flatten ++ v = u ++ bs ∧
      ∀ k ∈ codesOver (bs.map (tokenOf 0b00#2)) s, k.toNat ≤ 4094 := by
  induction bs generalizing s u with
  | nil => exact ⟨s, u, rfl, h, (List.append_nil u).symm, List.forall_mem_nil _⟩
  | cons c bs ih =>
    rw [List.map_cons]
    rcases h.data_cases c with ⟨k, htake, hpacked, hm⟩ | ⟨htake, hpacked, hm⟩
    · obtain ⟨t, v, ht, hv, hseqs, hcodes⟩ := ih (s := { s with enc := { s.enc with s := k } }) hm
      refine ⟨t, v, (takeTokens_cons htake _).trans ht, hv, ?_, ?_⟩
      · rw [seqsOver_cons_of_none htake hpacked, hseqs, List.append_assoc]; rfl
      · rw [codesOver_cons htake, hpacked]; exact hcodes
    · obtain ⟨t, v, ht, hv, hseqs, hcodes⟩ :=
        ih (s := { s with enc := s.enc.miss .insertThenReseed (u ++ [c]) c }) hm
      refine ⟨t, v, (takeTokens_cons htake _).trans ht, hv, ?_, ?_⟩
      · rw [seqsOver_cons_of_some htake hpacked h.held, List.flatten_cons, List.append_assoc, hseqs]; rfl
      · rw [codesOver_cons htake, hpacked]; exact List.forall_mem_cons.2 ⟨h.code_le, hcodes⟩

/-- After START and at least one byte the engine holds a match: what was packed and the match are together the bytes. -/
theorem takeTokens_open_matches (s : State) (c : Byte) (bs : List Byte) :
    ∃ t v, takeTokens .enc (openTokens (c :: bs)) s = .next t ∧ t.enc.Matches v ∧
      (seqsOver (openTokens (c :: bs)) s).flatten ++ v = c :: bs ∧
      ∀ k ∈ codesOver (openTokens (c :: bs)) s, k.toNat ≤ 4094 := by
  have hfirst := takeToken_firstData { s with enc := s.enc.start } c rfl
  have hnone := State.packed_of_not_run (s := { s with enc := s.enc.start }) StreamState.noConfusion (tokenOf 0b00#2 c)
  rw [openTokens, List.map_cons, takeTokens_cons (takeToken_encStart s), takeTokens_cons hfirst, codesOver_start,
    codesOver_firstData rfl, seqsOver_cons_of_none (takeToken_encStart s) s.packed_start,
    seqsOver_cons_of_none hfirst hnone]
  exact Encoder.Matches.takeTokens_data (s := { s with enc := { s.enc.start with s := baseCode c, state := .run } })
    (s.enc.matches_first c) bs

theorem streamTokens_eq_open (bs : List Byte) : streamTokens bs = openTokens bs ++ [0x100#10] := rfl

/-- The END of an engine that holds a match packs it. -/
theorem Encoder.Matches.codesOver_end {s : State} {u : Seq} (h : s.enc.Matches u) :
    codesOver [0x100#10] s = [s.enc.s] := by
  rw [codesOver_cons (takeToken_encEnd (.inr h.run)), State.packed_end h.run]; rfl

theorem Encoder.Matches.seqsOver_end {s : State} {u : Seq} (h : s.enc.Matches u) : seqsOver [0x100#10] s = [u] :=
  seqsOver_cons_of_some (takeToken_encEnd (.inr h.run)) (State.packed_end h.run) h.held []

/-- An empty stream packs nothing. -/
theorem codesOver_stream_nil (s : State) : codesOver (streamTokens []) s = [] :=
  (codesOver_start _ s).trans (codesOver_emptyStream s)

/-- So it names no sequence. -/
theorem seqsOver_stream_nil (s : State) : seqsOver (streamTokens []) s = [] := by
  rw [seqsOver, List.map_eq_nil_iff.1 (codesOver_stream_nil s)]; rfl

/-- Settles O25: the codewords go out in the wire format, each miss packs the match it ends, and END packs the last. -/
theorem encoderWritesWireFormat : Obligations.EncoderWritesWireFormat := by
  intro s bs
  obtain ⟨t, htake, hdone, hout⟩ := takeTokens_encStream s bs
  refine ⟨t, htake, hdone, hout, wirePack_length _, ?_⟩
  cases bs with
  | nil =>
    rw [codesOver_stream_nil, seqsOver_stream_nil]
    exact ⟨rfl, List.forall_mem_nil _, fun _ => rfl, fun hne => absurd rfl hne⟩
  | cons c bs =>
    obtain ⟨r, v, hopen, hmatch, hseqs, hcodes⟩ := takeTokens_open_matches s c bs
    rw [streamTokens_eq_open, seqsOver_append hopen, codesOver_append hopen, hmatch.codesOver_end, hmatch.seqsOver_end]
    refine ⟨by simpa using hseqs, ?_, fun hnil => absurd hnil (List.cons_ne_nil c bs), fun _ => List.length_append⟩
    exact List.forall_mem_append.2 ⟨hcodes, List.forall_mem_singleton.2 hmatch.code_le⟩

end Sys2Proof.Machine
end

section
/-! SUPPORT. R78, R105, R108 on the decode side: one insertion for each codeword after the first. -/

namespace Sys2Proof.Machine

/-! ### The decode engine's counts over a stream -/

/-- The counters of a generation that has had `m` insertions since it was seeded with GEN 0 (R105, R108). -/
structure Generation.Counts (g : Generation) (m : Nat) : Prop where
  domain : g.Domain
  next   : g.next.toNat = 256 + m % 3840
  gen    : g.gen = BitVec.ofNat 32 (m / 3840)

theorem Generation.counts_reset : Generation.reset.Counts 0 := ⟨Generation.domain_empty _, rfl, rfl⟩

/-- An insertion counts one on, through the reseed at 4095. -/
theorem Generation.Counts.insert {g : Generation} {m : Nat} (h : g.Counts m) (u : Seq) :
    (g.insert .insertThenReseed u).Counts (m + 1) := by
  obtain ⟨hdom, hnext, hgen⟩ := h
  refine ⟨Generation.insert_domain hdom u, ?_, ?_⟩ <;>
    rcases Generation.insert_cases hdom u with ⟨hlt, hins⟩ | ⟨hlast, hins⟩ <;> rw [hins]
  · exact (next_add_one hlt).trans (by omega)
  · exact (by omega : 256 = 256 + (m + 1) % 3840)
  · exact hgen.trans (congrArg _ (by omega))
  · rw [hgen, ← BitVec.ofNat_add]
    exact congrArg (BitVec.ofNat 32) (by omega)

/-- An open decode engine that has decoded `n` codewords: none yet in EMPTY, and in RUN one insertion for each but the
first. -/
def Decoder.Decoded (d : Decoder) (n : Nat) : Prop :=
  (d.state = .empty ∧ n = 0 ∨ d.state = .run ∧ 1 ≤ n) ∧ d.table.Counts (n - 1)

theorem Decoder.decoded_start (d : Decoder) : d.start.Decoded 0 := ⟨.inl ⟨rfl, rfl⟩, Generation.counts_reset⟩

theorem Decoder.Decoded.isOpen {d : Decoder} {n : Nat} (h : d.Decoded n) : d.state = .empty ∨ d.state = .run :=
  h.1.imp And.left And.left

/-- The count does not depend on the unpack half. -/
theorem Decoder.Decoded.withUnpack {d : Decoder} {n : Nat} (h : d.Decoded n) (x : Decoder) :
    (d.withUnpack x).Decoded n := h

/-- A codeword step that completes counts one codeword on (R165). -/
theorem Decoder.Decoded.decodeCode {d d' : Decoder} {n : Nat} (h : d.Decoded n) {k : Code}
    (hd : d.decodeCode .insertThenReseed .literal k = .ok d') : d'.Decoded (n + 1) := by
  have hrun : d'.state = .run := Decoder.decodeCode_state h.isOpen hd
  refine ⟨.inr ⟨hrun, Nat.le_add_left 1 n⟩, ?_⟩
  obtain ⟨hstate, hcounts⟩ := h
  obtain ⟨_, _, _, ⟨hempty, htable, _⟩ | ⟨hne, w, _, _, htable, _⟩⟩ := Decoder.decodeCode_ok d k d' hd <;>
    rw [htable]
  · obtain ⟨_, rfl⟩ | ⟨hstate, _⟩ := hstate
    · exact hcounts
    · exact StreamState.noConfusion (hempty.symm.trans hstate)
  · obtain ⟨hstate, _⟩ | ⟨_, hn⟩ := hstate
    · exact absurd hstate hne
    · obtain ⟨m, rfl⟩ := Nat.exists_eq_add_of_le' hn
      exact hcounts.insert w

/-- DATA tokens leave an engine in ERROR as it is (R204). -/
theorem takeTokens_decData_error {s : State} (h : s.dec.state = .error) (bs : List Byte) :
    takeTokens .dec (bs.map (tokenOf 0b00#2)) s = .next s := by
  induction bs with
  | nil => rfl
  | cons b bs ih =>
    have htake : takeToken .dec (tokenOf 0b00#2 b) s = .next s := by
      rw [takeToken_ok .dec _ s _ (decode_data .dec b)]
      change s.gate .dec _ = _
      rw [State.gate, State.streamState_dec, h]
    exact (takeTokens_cons htake _).trans ih

/-- Everything DATA can do on an open stream: the byte is held, a codeword decodes, or a codeword raises its cause. -/
theorem takeToken_decData_cases {s s' : State} {b : Byte} (ho : s.dec.state = .empty ∨ s.dec.state = .run)
    (h : takeToken .dec (tokenOf 0b00#2 b) s = .next s') :
    (∃ x, s.dec.unpack b = (s.dec.withUnpack x, none) ∧ s' = { s with dec := s.dec.withUnpack x }) ∨
    ∃ x k, s.dec.unpack b = (s.dec.withUnpack x, some k) ∧
      ((∃ d, s.dec.decodeCode .insertThenReseed .literal k = .ok d ∧ s' = { s with dec := d.withUnpack x }) ∨
      ∃ c, s.dec.decodeCode .insertThenReseed .literal k = .raise c ∧ s' = s.raiseFault .dec c) := by
  obtain ⟨x, hu | ⟨k, hu⟩⟩ := s.dec.unpack_eq b
  · cases (takeToken_decData_held ho hu).symm.trans h
    exact .inl ⟨x, hu, rfl⟩
  · have hcommit : s.commitDec ((s.dec.decodeCode .insertThenReseed .literal k).map (·.withUnpack x)) = .next s' := by
      rw [← Decoder.decodeCode_withUnpack, ← h, takeToken_decData ho, Decoder.data, hu]
    refine .inr ⟨x, k, hu, ?_⟩
    cases hd : s.dec.decodeCode .insertThenReseed .literal k <;> rw [hd] at hcommit <;> cases hcommit
    · exact .inl ⟨_, rfl, rfl⟩
    · exact .inr ⟨_, rfl, rfl⟩

/-- The bytes of a stream that raise no error complete codewords, and each is counted. -/
theorem Decoder.Decoded.takeTokens_data {s t : State} {n : Nat} (h : s.dec.Decoded n) {bs : List Byte}
    (htake : takeTokens .dec (bs.map (tokenOf 0b00#2)) s = .next t) (ht : t.dec.state ≠ .error) :
    t.dec.Decoded (n + (unpackedOver bs s.dec).length) := by
  induction bs generalizing s n with
  | nil => cases htake; exact h
  | cons b bs ih =>
    obtain ⟨s₁, hfirst, hrest⟩ := takeTokens_cons_next htake
    obtain ⟨x, hu, rfl⟩ | ⟨x, k, hu, ⟨d, hd, rfl⟩ | ⟨c, _, rfl⟩⟩ :=
      takeToken_decData_cases h.isOpen hfirst
    · rw [unpackedOver, hu]
      exact ih (s := { s with dec := s.dec.withUnpack x }) (h.withUnpack x) hrest
    · have hdecoded := ih (s := { s with dec := d.withUnpack x }) ((h.decodeCode hd).withUnpack x) hrest
      have hunpacked : unpackedOver bs (d.withUnpack x) = unpackedOver bs (s.dec.withUnpack x) :=
        unpackedOver_congr bs rfl rfl rfl
      rw [hunpacked, Nat.add_right_comm] at hdecoded
      rw [unpackedOver, hu]
      exact hdecoded
    · rw [takeTokens_decData_error (State.raiseFault_streamState .dec c s)] at hrest
      cases hrest
      exact absurd rfl ht

/-- Settles O35, by induction over the bytes: each codeword after the first makes one insertion. -/
theorem decoderCountsAndReseeds : Obligations.DecoderCountsAndReseeds := by
  intro s t ps htake ht
  rw [openTokens, takeTokens_cons (takeToken_decStart s)] at htake
  obtain ⟨_, _, hnext, hgen⟩ := Decoder.Decoded.takeTokens_data (s := { s with dec := s.dec.start })
    s.dec.decoded_start htake ht
  rw [Nat.zero_add, unpackedOver_eq_wireUnpack ps _ rfl] at hnext hgen
  exact ⟨hnext, hgen⟩

end Sys2Proof.Machine
end

section
/-! SUPPORT. R201: which token raises which cause, kind of token by kind of token. -/

namespace Sys2Proof.Machine

/-- R201's table: what raises each cause when engine `e` takes token `t`. -/
def State.Raises (s : State) (e : Engine) (t : Token) : Cause → Prop
  | .none => False
  | .seq => s.streamState e = .done ∧ (t.extractLsb' 8 2 = 0b00#2 ∨ t = 0x100#10)
  | .badToken => t.extractLsb' 8 2 ≠ 0b00#2 ∧ t.extractLsb' 0 8 ≠ 0x00#8
  | .abort => t = 0x300#10
  | .badFirst => e = .dec ∧ s.dec.state = .empty ∧ t.extractLsb' 8 2 = 0b00#2 ∧
      ∃ k, (s.dec.unpack (t.extractLsb' 0 8)).2 = some k ∧ 256 ≤ k.toNat
  | .overlong => e = .dec ∧ s.dec.state = .run ∧ t.extractLsb' 8 2 = 0b00#2 ∧
      (∃ k, (s.dec.unpack (t.extractLsb' 0 8)).2 = some k) ∧ 3841 < s.dec.prev.length + 1

/-- The cause in `s'` is the one the table gives for `t`, or NONE where the table gives none. -/
def CauseAsTable (e : Engine) (t : Token) (s s' : State) : Prop :=
  ∀ c, c ≠ .none → (s'.cause e = c ↔ s.Raises e t c)

/-- The rows of the table exclude each other: by the token's fields, or by STATE. -/
theorem State.Raises.unique {s : State} {e : Engine} {t : Token} {c c' : Cause} (h : s.Raises e t c)
    (h' : s.Raises e t c') : c = c' := by
  have hdec : e = .dec → s.streamState e = s.dec.state := by rintro rfl; rfl
  cases c <;> cases c' <;> simp_all [State.Raises]

/-- On an open stream the table gives DATA a cause on the decode engine alone, where it completes a codeword that is no
base code in EMPTY, or that PREV is too long for in RUN. -/
theorem State.Raises.of_open_data {s : State} {e : Engine} {t : Token} {c : Cause}
    (ho : s.streamState e = .empty ∨ s.streamState e = .run) (hop : t.extractLsb' 8 2 = 0#2) (h : s.Raises e t c) :
    e = .dec ∧ ∃ k, (s.dec.unpack (payloadOf t)).2 = some k ∧
      (s.dec.state = .empty ∧ 256 ≤ k.toNat ∨ s.dec.state = .run ∧ 3841 < s.dec.prev.length + 1) := by
  cases c with
  | none => exact h.elim
  | seq => rcases ho with hs | hs <;> exact StreamState.noConfusion (hs.symm.trans h.1)
  | badToken => exact absurd hop h.1
  | abort =>
    obtain rfl : t = 0x300#10 := h
    exact absurd hop (by decide)
  | badFirst =>
    obtain ⟨he, hempty, _, k, hk, hle⟩ := h
    exact ⟨he, k, hk, .inl ⟨hempty, hle⟩⟩
  | overlong =>
    obtain ⟨he, hrun, _, ⟨k, hk⟩, hlong⟩ := h
    exact ⟨he, k, hk, .inr ⟨hrun, hlong⟩⟩

theorem causeAsTable_of_raises {e : Engine} {t : Token} {s s' : State} {c : Cause} (hcause : s'.cause e = c)
    (h : s.Raises e t c) : CauseAsTable e t s s' := by
  intro c' _
  rw [hcause]
  exact ⟨fun heq => heq ▸ h, h.unique⟩

theorem causeAsTable_of_none {e : Engine} {t : Token} {s s' : State} (hcause : s'.cause e = .none)
    (hno : ∀ c, ¬ s.Raises e t c) : CauseAsTable e t s s' := by
  intro c hc
  rw [hcause]
  exact iff_of_false hc.symm (hno c)

/-- ERR is NONE exactly outside ERROR, on either engine. -/
theorem State.Inv.cause_none_iff {s : State} (h : s.Inv) (e : Engine) :
    s.cause e = .none ↔ s.streamState e ≠ .error := by
  cases e
  exacts [h.enc.err_iff, h.dec.err_iff]

/-! ### Reserved tokens, ABORT and START -/

theorem causeAsTable_reserved {e : Engine} {t : Token} {s s' : State} (hs : s.streamState e ≠ .error)
    (hop : t.extractLsb' 8 2 ≠ 0#2) (hp : payloadOf t ≠ 0#8) (htake : takeToken e t s = .next s') :
    CauseAsTable e t s s' := by
  obtain ⟨x, hx⟩ := decode_reserved hop hp e
  cases (takeToken_badToken hx hs).symm.trans htake
  exact causeAsTable_of_raises (State.raiseFault_cause e .badToken s) ⟨hop, hp⟩

theorem causeAsTable_abort {e : Engine} {s s' : State} (hs : s.streamState e ≠ .error)
    (htake : takeToken e 0x300#10 s = .next s') : CauseAsTable e 0x300#10 s s' := by
  have habort : takeToken e 0x300#10 s = .next (s.takeAbort e) := by cases e <;> rfl
  rcases s.takeAbort_cases e with ⟨herr, _⟩ | ⟨_, hraise⟩
  · exact absurd herr hs
  · rw [hraise] at habort
    cases habort.symm.trans htake
    exact causeAsTable_of_raises (State.raiseFault_cause e .abort s) rfl

theorem causeAsTable_start {e : Engine} {s s' : State} (htake : takeToken e 0x200#10 s = .next s') :
    CauseAsTable e 0x200#10 s s' := by
  have hnone : s'.cause e = .none := by
    cases e with
    | enc => cases (takeToken_encStart s).symm.trans htake; rfl
    | dec => cases (takeToken_decStart s).symm.trans htake; rfl
  exact causeAsTable_of_none hnone fun c hc => by cases c <;> simp [State.Raises] at hc

/-! ### DATA and END in DONE -/

theorem State.gate_done {e : Engine} {s : State} (h : s.streamState e = .done)
    (body : Host.Outcome State Fault Refusal) : s.gate e body = .next (s.raiseFault e .seq) := by
  rw [State.gate, h]

/-- DATA and END in DONE raise SEQ, on either engine. -/
theorem causeAsTable_done {e : Engine} {t : Token} {s s' : State} (hdone : s.streamState e = .done)
    (ht : t.extractLsb' 8 2 = 0#2 ∨ t = 0x100#10) (htake : takeToken e t s = .next s') : CauseAsTable e t s s' := by
  have hraise : takeToken e t s = .next (s.raiseFault e .seq) := by
    rcases ht with hop | rfl
    · rw [token_eq t _ _ hop rfl, takeToken_ok e _ s _ (decode_data e _)]
      cases e <;> exact State.gate_done hdone _
    · rw [takeToken_finish]
      cases e <;> exact State.gate_done hdone _
  cases hraise.symm.trans htake
  exact causeAsTable_of_raises (State.raiseFault_cause e .seq s) ⟨hdone, ht⟩

/-! ### END on an open stream -/

theorem causeAsTable_end {e : Engine} {s s' : State} (h : s.Inv)
    (ho : s.streamState e = .empty ∨ s.streamState e = .run) (htake : takeToken e 0x100#10 s = .next s') :
    CauseAsTable e 0x100#10 s s' := by
  have hnone : s'.cause e = .none := by
    cases e with
    | enc => cases (takeToken_encEnd ho).symm.trans htake; exact s.enc.finish_err.trans (h.enc.err_none ho)
    | dec => cases (takeToken_decEnd ho).symm.trans htake; exact h.dec.err_none ho
  have hdone : s.streamState e ≠ .done := by rcases ho with hs | hs <;> simp [hs]
  exact causeAsTable_of_none hnone fun c hc => by cases c <;> simp [State.Raises, hdone] at hc

/-! ### DATA on an open stream -/

theorem Encoder.data_err {r : ReseedReading} {c : Byte} {e e' : Encoder} (h : e.data r c = .ok e') :
    e'.err = e.err := by
  rcases Encoder.data_ok_cases h with rfl | ⟨_, rfl⟩ | ⟨_, rfl⟩
  · rfl
  · rfl
  · exact e.pack_err e.s

/-- DATA on an open stream raises nothing on the encode engine. -/
theorem causeAsTable_encData {t : Token} {s s' : State} (h : s.Inv)
    (ho : s.streamState .enc = .empty ∨ s.streamState .enc = .run) (hop : t.extractLsb' 8 2 = 0#2)
    (htake : takeToken .enc t s = .next s') : CauseAsTable .enc t s s' := by
  have hnone : s'.cause .enc = .none := by
    obtain ⟨e', hdata, _⟩ := h.enc.data ho (payloadOf t)
    rw [token_eq t _ _ hop rfl, takeToken_ok .enc _ s _ (decode_data .enc _)] at htake
    have hexec := exec_encData_open s (payloadOf t) ho
    rw [hdata] at hexec
    cases hexec.symm.trans htake
    exact (Encoder.data_err hdata).trans (h.enc.err_none ho)
  exact causeAsTable_of_none hnone fun c hc => Engine.noConfusion (hc.of_open_data ho hop).1

/-- A codeword step that completes had a base code in EMPTY, and in RUN one more byte than PREV did fit (R165). -/
theorem Decoder.decodeCode_ok_bounds {d d' : Decoder} {k : Code}
    (h : d.decodeCode .insertThenReseed .literal k = .ok d') :
    (d.state = .empty → k.toNat < 256) ∧ (d.state = .run → d.prev.length + 1 ≤ 3841) := by
  have fits {x : Byte} {u : Seq} (hput : d.putSeq .insertThenReseed (d.prev ++ [x]) u = .ok d') :
      d.prev.length + 1 ≤ 3841 := by
    rcases d.putSeq_cases .insertThenReseed (d.prev ++ [x]) u with ⟨_, hraise⟩ | ⟨hfits, _⟩
    · cases hraise.symm.trans hput
    · simpa [maxSeqLen] using hfits
  refine ⟨fun hempty => ?_, fun hrun => ?_⟩
  · rw [Decoder.decodeCode_empty _ _ k d hempty, Decoder.firstCode] at h
    split at h
    · cases h
    · exact Nat.lt_of_not_le ‹_›
  · rw [Decoder.decodeCode_run k d hrun] at h
    split at h
    · unfold Decoder.codeInTable at h
      split at h
      · cases h
      · cases h
      · exact fits h
    · unfold Decoder.codeAtNext at h
      split at h
      · cases h
      · exact fits h

/-- DATA on an open stream raises BAD_FIRST or OVERLONG on the decode engine, where it completes a codeword that the
codeword step refuses. -/
theorem causeAsTable_decData {t : Token} {s s' : State} (h : s.Inv)
    (ho : s.streamState .dec = .empty ∨ s.streamState .dec = .run) (hop : t.extractLsb' 8 2 = 0#2)
    (htake : takeToken .dec t s = .next s') : CauseAsTable .dec t s s' := by
  rw [token_eq t _ _ hop rfl] at htake
  obtain ⟨x, hu, rfl⟩ | ⟨x, k, hu, ⟨d, hd, rfl⟩ | ⟨c, hd, rfl⟩⟩ := takeToken_decData_cases ho htake
  · refine causeAsTable_of_none (h.dec.err_none ho) fun c hc => ?_
    obtain ⟨_, k, hk, _⟩ := hc.of_open_data ho hop
    cases (congrArg Prod.snd hu).symm.trans hk
  · obtain ⟨hfirst, hfits⟩ := Decoder.decodeCode_ok_bounds hd
    have hsafe := h.dec.decodeCode ho k
    rw [hd] at hsafe
    obtain ⟨hinv, hrun⟩ := hsafe
    refine causeAsTable_of_none (hinv.err_none (.inr hrun)) fun c hc => ?_
    obtain ⟨_, k', hk', ⟨hempty, hle⟩ | ⟨hrun, hlong⟩⟩ := hc.of_open_data ho hop
    · cases (congrArg Prod.snd hu).symm.trans hk'
      exact absurd (hfirst hempty) (Nat.not_lt.2 hle)
    · exact absurd (hfits hrun) (Nat.not_le.2 hlong)
  · have hcode : (s.dec.unpack (t.extractLsb' 0 8)).2 = some k := congrArg Prod.snd hu
    rcases Decoder.decodeCode_raise s.dec k c hd with ⟨rfl, hempty, hle⟩ | ⟨rfl, hne, hlong⟩
    · exact causeAsTable_of_raises rfl ⟨rfl, hempty, hop, k, hcode, hle⟩
    · exact causeAsTable_of_raises rfl ⟨rfl, ho.resolve_left hne, hop, ⟨k, hcode⟩, hlong⟩

/-! ### All tokens -/

/-- Outside ERROR every token has the cause of the table. -/
theorem State.Inv.causeAsTable {s s' : State} (h : s.Inv) {e : Engine} {t : Token} (hs : s.streamState e ≠ .error)
    (htake : Machine.takeToken e t s = .next s') : CauseAsTable e t s s' := by
  have hstate : s.streamState e = .done ∨ s.streamState e = .empty ∨ s.streamState e = .run := by
    cases hst : s.streamState e <;> simp_all
  rcases decode_kinds t with ⟨hop, _⟩ | ⟨rfl, _⟩ | ⟨rfl, _⟩ | ⟨rfl, _⟩ | ⟨hop, hp, _⟩
  · rcases hstate with hdone | ho
    · exact causeAsTable_done hdone (.inl hop) htake
    · cases e
      exacts [causeAsTable_encData h ho hop htake, causeAsTable_decData h ho hop htake]
  · rcases hstate with hdone | ho
    · exact causeAsTable_done hdone (.inr rfl) htake
    · exact causeAsTable_end h ho htake
  · exact causeAsTable_start htake
  · exact causeAsTable_abort hs htake
  · exact causeAsTable_reserved hs hop hp htake

/-- Settles O14, kind of token by kind of token; that ERR is NONE exactly outside ERROR is an invariant. -/
theorem causeTable : Obligations.CauseTable := by
  intro e t s s' h hs htake
  have htable := h.causeAsTable hs htake
  obtain ⟨a, ha, hinv⟩ := h.takeToken e t
  cases ha.symm.trans htake
  exact ⟨htable .seq (by decide), htable .badToken (by decide), htable .abort (by decide),
    htable .badFirst (by decide), htable .overlong (by decide), hinv.cause_none_iff e⟩

end Sys2Proof.Machine
end

section
/-! SUPPORT. R100, R101, R102, R104, R105: what the Dictionary primitives leave in a generation and what the search in it
answers; and, from the shape of R107, that a generation holds every prefix of its entries. -/

namespace Sys2Proof.Machine

/-! ### DictFind -/

/-- When the entries differ, DictFind answers exactly the code that names the sequence (R101, R107). -/
theorem Generation.find_eq_some_iff {g : Generation} (hdom : g.Domain) (hshape : g.Shape) {u : Seq} {k : Code} :
    g.find .insertThenReseed u = some k ↔ g.seq k = some u := by
  refine ⟨fun hfind => (Generation.find_some hdom hfind).2, fun hseq => ?_⟩
  cases hfind : g.find .insertThenReseed u with
  | none => exact absurd hseq (Generation.find_none hdom hfind k)
  | some j => exact congrArg some (hshape.2 j k u (Generation.find_some hdom hfind).2 hseq)

/-- DictFind answers NONE exactly when no code names the sequence (R101). -/
theorem Generation.find_eq_none_iff {g : Generation} (hdom : g.Domain) {u : Seq} :
    g.find .insertThenReseed u = none ↔ ∀ k, g.seq k ≠ some u := by
  refine ⟨Generation.find_none hdom, fun habsent => ?_⟩
  cases hfind : g.find .insertThenReseed u with
  | none => rfl
  | some k => exact absurd (Generation.find_some hdom hfind).2 (habsent k)

/-- Settles O40: the search answers the code that names u, and a code that names anything is below NEXT. -/
theorem dictFindIsLookup : Obligations.DictFindIsLookup := by
  intro g u hdom hshape
  refine ⟨fun k => ?_, ?_⟩
  · rw [Generation.find_eq_some_iff hdom hshape]
    exact ⟨fun hseq => ⟨hdom.lt_of_seq hseq, hseq⟩, And.right⟩
  · rw [Generation.find_eq_none_iff hdom]
    exact ⟨fun habsent k _ => habsent k, fun habsent k hseq => habsent k (hdom.lt_of_seq hseq) hseq⟩

/-! ### Seed, insertion and Advance -/

/-- In a seeded generation only a one-byte sequence has a code (R100). -/
theorem Generation.seq_seed_length {g : Generation} {k : Code} {u : Seq} (hseq : g.seed.seq k = some u) :
    u.length = 1 := by
  rw [Generation.seed, Generation.seq_empty] at hseq
  split at hseq <;> cases hseq
  rfl

/-- Settles O39: the codes by the storage that Seed empties, the search by what those codes name. -/
theorem seedLeavesBaseEntries : Obligations.SeedLeavesBaseEntries := by
  intro g
  have hdom : g.seed.Domain := Generation.domain_empty g.gen
  have hshape : g.seed.Shape := Generation.shape_empty _ g.gen
  refine ⟨g.seed.seq_base, fun k hk => ?_, rfl, rfl, fun b => ?_, fun u hu => ?_⟩
  · exact (Generation.seq_empty _ g.gen k).trans (if_neg (Nat.not_lt.2 hk))
  · exact (Generation.find_eq_some_iff hdom hshape).2 (g.seed.seq_baseCode b)
  · exact (Generation.find_eq_none_iff hdom).2 fun k hseq => hu (Generation.seq_seed_length hseq)

/-- Settles O41: the two cases of an insertion, and what each code names after it. -/
theorem insertStoresAtNext : Obligations.InsertStoresAtNext := by
  intro g u hdom
  refine ⟨fun hlt => ?_, fun hlast => ?_⟩
  · have hseq := Generation.seq_insert_lt hdom u hlt
    have hins := Generation.insert_lt hdom u hlt
    refine ⟨(hseq g.next).trans (if_pos rfl), fun k hk => (hseq k).trans (if_neg hk), ?_, ?_⟩
    · rw [hins]; exact next_add_one hlt
    · rw [hins]
  · rw [Generation.insert_last u hlast]
    exact ⟨Generation.seq_empty _ _, rfl, BitVec.toNat_add _ _⟩

/-- Settles O43: NEXT + 1 below the limit, the reseed at it. -/
theorem advanceReseedsAtLimit : Obligations.AdvanceReseedsAtLimit := by
  intro g
  refine ⟨fun hlt => ?_, fun hlast => ?_⟩
  · have hnext : g.next.toNat < 4095 := Nat.lt_of_succ_lt_succ hlt
    rw [g.advance_lt hnext]
    exact ⟨next_add_one hnext, rfl, rfl⟩
  · have hgen : g.gen + 1#32 = BitVec.ofNat 32 (g.gen.toNat + 1) := by simp [BitVec.ofNat_add]
    rw [g.advance_last (Nat.succ.inj hlast), ← hgen]
    rfl

/-! ### The greedy match -/

/-- A generation of the shape of R107 holds every non-empty prefix of its entries, because each dynamic entry extends an
entry of a smaller code by one byte. -/
theorem Generation.Shape.seq_of_prefix {g : Generation} (hshape : g.Shape) {p v : Seq} {k : Code} (hp : p ≠ [])
    (hk : g.seq k = some v) (hpv : p <+: v) : ∃ j, g.seq j = some p := by
  induction hn : k.toNat using Nat.strong_induction_on generalizing k v with
  | _ n ih =>
    subst hn
    rcases Nat.lt_or_ge k.toNat nBase with hbase | hdyn
    · cases (g.seq_base k hbase).symm.trans hk
      rcases List.prefix_concat_iff (l₂ := []).1 hpv with rfl | hnil
      · exact ⟨k, hk⟩
      · exact absurd (List.prefix_nil.1 hnil) hp
    · obtain ⟨j, q, c, hj, hq, rfl⟩ := hshape.1 k v hdyn hk
      rcases List.prefix_concat_iff.1 hpv with rfl | hpq
      · exact ⟨k, hk⟩
      · exact ih j.toNat hj hq hpq rfl

/-- Settles O24: an entry longer than the match that is a prefix of the input has the match and `c` as a prefix, which
then would be an entry too. -/
theorem packedPrefixIsLongest : Obligations.PackedPrefixIsLongest := by
  intro c s u hinv _ _ hmiss rest v k hv hprefix
  by_contra hlonger
  have hlen : (u ++ [c]).length ≤ v.length := by
    rw [List.length_append]
    exact Nat.lt_of_not_le hlonger
  have hinput : u ++ [c] <+: u ++ c :: rest := ⟨rest, List.append_assoc u [c] rest⟩
  have huc : u ++ [c] <+: v := List.prefix_of_prefix_length_le hinput hprefix hlen
  obtain ⟨j, hj⟩ := hinv.enc.shape.seq_of_prefix (List.append_ne_nil_of_right_ne_nil u (List.cons_ne_nil c [])) hv huc
  exact hmiss j hj

end Sys2Proof.Machine
end

section
/-! SUPPORT. R166: in lockstep, codeword by codeword, the decode engine holds the generation that the encode engine packed
the codeword from. -/

namespace Sys2Proof.Machine

/-! ### What a stream packs, with the generations -/

theorem packedOver_cons_of_none {t : Token} {s s' : State} (h : takeToken .enc t s = .next s')
    (hpacked : s.packed t = none) (ts : List Token) : packedOver (t :: ts) s = packedOver ts s' := by
  rw [packedOver_cons h, hpacked]; rfl

theorem packedOver_cons_of_some {t : Token} {s s' : State} {k : Code} (h : takeToken .enc t s = .next s')
    (hpacked : s.packed t = some k) (ts : List Token) :
    packedOver (t :: ts) s = (k, s.enc.dict) :: packedOver ts s' := by
  rw [packedOver_cons h, hpacked]; rfl

/-- An empty stream packs nothing. -/
theorem packedOver_stream_nil (s : State) : packedOver (streamTokens []) s = [] :=
  List.map_eq_nil_iff.1 (codesOver_stream_nil s)

/-- START and the first byte of a stream pack nothing, and leave the byte as the match. -/
theorem packedOver_stream_cons (s : State) (c : Byte) (bs : List Byte) :
    packedOver (streamTokens (c :: bs)) s =
      packedOver (bs.map (tokenOf 0b00#2) ++ [0x100#10])
        { s with enc := { s.enc.start with s := baseCode c, state := .run } } := by
  have hnone := State.packed_of_not_run (s := { s with enc := s.enc.start }) StreamState.noConfusion (tokenOf 0b00#2 c)
  rw [streamTokens, packedOver_cons_of_none (takeToken_encStart s) s.packed_start, List.map_cons, List.cons_append,
    packedOver_cons_of_none (takeToken_firstData _ c rfl) hnone]

/-! ### The lockstep -/

/-- The decode engine `d` mirrors the packed codewords `ps`, each paired with its generation: after the codeword step on
the first `j + 1` of them, its table is the generation that codeword `j` was packed from, PREV is the sequence that the
codeword names there, and the sequences so far are out. -/
def Decoder.Mirrors (d : Decoder) (ps : List (Code × Generation)) : Prop :=
  ∀ (j : Nat) (k : Code) (g : Generation), ps[j]? = some (k, g) →
    ∃ (d' : Decoder) (u : Seq), decodeOver ((ps.map Prod.fst).take (j + 1)) d = .ok d' ∧
      g.seq k = some u ∧ d'.table = g ∧ d'.prev = u ∧
      d'.out = d.out ++ ((ps.filterMap fun x => x.2.seq x.1).take (j + 1)).flatten.map .byte

theorem Decoder.mirrors_nil (d : Decoder) : d.Mirrors [] := fun _ _ _ h => nomatch h

/-- An engine that follows the generation of the first codeword mirrors it, and the rest from where it then stands. -/
theorem Decoder.Follows.mirrors_cons {d : Decoder} {g : Generation} {c : Byte} (hf : d.Follows g c) {k : Code} {u : Seq}
    (hk : g.seq k = some (c :: u)) {ps : List (Code × Generation)}
    (hps : Decoder.Mirrors { d.emit ((c :: u).map .byte) with table := g, prev := c :: u, state := .run } ps) :
    d.Mirrors ((k, g) :: ps) := by
  intro j k' g' hj
  have hstep := decodeOver_cons (hf k u hk)
  cases j with
  | zero =>
    cases hj
    exact ⟨_, c :: u, hstep [], hk, rfl, rfl, by simp [hk]⟩
  | succ j =>
    obtain ⟨d', v, hd', hv, htable, hprev, hout⟩ := hps j k' g' hj
    exact ⟨d', v, (hstep _).trans hd', hv, htable, hprev, by simpa [hk] using hout⟩

/-- The codewords packed from a match `c :: u` and the bytes `bs` to the end of the stream are mirrored by an engine that
follows the encode engine's generation: a miss packs the match and inserts it with the byte, and the decode engine follows
that insertion. -/
theorem Encoder.Matches.mirrors_rest {s : State} {c : Byte} {u : Seq} (h : s.enc.Matches (c :: u)) {d : Decoder}
    (hf : d.Follows s.enc.dict c) (bs : List Byte) :
    d.Mirrors (packedOver (bs.map (tokenOf 0b00#2) ++ [0x100#10]) s) := by
  induction bs generalizing s c u d with
  | nil =>
    rw [List.map_nil, List.nil_append,
      packedOver_cons_of_some (takeToken_encEnd (.inr h.run)) (State.packed_end h.run)]
    exact hf.mirrors_cons h.held (Decoder.mirrors_nil _)
  | cons b bs ih =>
    rw [List.map_cons, List.cons_append]
    rcases h.data_cases b with ⟨k, htake, hpacked, hm⟩ | ⟨htake, hpacked, hm⟩
    · rw [packedOver_cons_of_none htake hpacked]
      exact ih (s := { s with enc := { s.enc with s := k } }) hm hf
    · rw [packedOver_cons_of_some htake hpacked]
      refine hf.mirrors_cons h.held (ih (s := { s with enc := s.enc.miss .insertThenReseed (c :: u ++ [b]) b }) hm ?_)
      rw [Encoder.miss_dict]
      have hlen : (c :: u).length < maxSeqLen :=
        Nat.lt_succ_of_le (Generation.seq_length_le h.domain h.shape h.held)
      exact Decoder.follows_insert
        (d := { d.emit ((c :: u).map .byte) with table := s.enc.dict, prev := c :: u, state := .run })
        rfl h.domain (List.cons_ne_nil c u) hlen b

/-- A freshly started decode engine mirrors every stream that the encode engine packs. -/
theorem Decoder.start_mirrors (d : Decoder) (s : State) (bs : List Byte) :
    d.start.Mirrors (packedOver (streamTokens bs) s) := by
  cases bs with
  | nil =>
    rw [packedOver_stream_nil]
    exact d.start.mirrors_nil
  | cons c bs =>
    rw [packedOver_stream_cons]
    exact Encoder.Matches.mirrors_rest (s := { s with enc := { s.enc.start with s := baseCode c, state := .run } })
      (s.enc.matches_first c) (d.start_follows c) bs

/-- Settles O37: after reset the decode engine stands as after START, with nothing out yet. -/
theorem decoderMirrorsEncoder : Obligations.DecoderMirrorsEncoder :=
  fun s bs => Decoder.reset.start_mirrors s bs

end Sys2Proof.Machine
end

section
/-! SUPPORT. The two halves of the bitpacker, operation by operation and over a whole group (R121 to R130), and the two
tokens that lean on them: ENC.END (R143) and DEC.DATA at PHASE 0 (R162). -/

namespace Sys2Proof.Machine

/-! ### The pack half -/

theorem Encoder.pack_of_even {e : Encoder} (hpar : e.par = false) (k : Code) : e.pack k = e.packA k := by
  simp [Encoder.pack, hpar]

theorem Encoder.pack_of_odd {e : Encoder} (hpar : e.par = true) (k : Code) : e.pack k = e.packB k := by
  simp [Encoder.pack, hpar]

theorem Encoder.packFlush_of_even {e : Encoder} (hpar : e.par = false) : e.packFlush = e := by
  simp [Encoder.packFlush, hpar]

theorem Encoder.packFlush_of_odd {e : Encoder} (hpar : e.par = true) :
    e.packFlush = { e.emit [.byte (joinNibbles e.nib 0#4)] with par := false } := by
  simp [Encoder.packFlush, hpar]

/-- Settles O46, by the parity: the operations themselves are the rules' bit fields. -/
theorem packHalf : Obligations.PackHalf := fun k _ =>
  ⟨rfl, rfl, fun h => Encoder.pack_of_even h k, fun h => Encoder.pack_of_odd h k,
    fun h => Encoder.packFlush_of_odd h, fun h => Encoder.packFlush_of_even h⟩

/-- A whole group from a group boundary (R75): byte0, byte1 and byte2 go out, and the parity is even again. -/
theorem Encoder.pack_group {e : Encoder} (hpar : e.par = false) (a b : Code) :
    (e.pack a).pack b =
      { e.emit [.byte (codeHigh8 a), .byte (joinNibbles (codeLow4 a) (codeHigh4 b)), .byte (codeLow8 b)] with
        nib := codeLow4 a, par := false } := by
  rw [Encoder.pack_of_even hpar, Encoder.pack_of_odd rfl]
  simp [Encoder.packA, Encoder.packB, Encoder.emit]

/-- A lone codeword and the flush from a group boundary (R124): byte0 goes out, and byte1 with a zero low nibble. -/
theorem Encoder.pack_packFlush {e : Encoder} (hpar : e.par = false) (a : Code) :
    (e.pack a).packFlush =
      { e.emit [.byte (codeHigh8 a), .byte (joinNibbles (codeLow4 a) 0#4)] with nib := codeLow4 a, par := false } := by
  rw [Encoder.pack_of_even hpar, Encoder.packFlush_of_odd rfl]
  simp [Encoder.packA, Encoder.emit]

/-! ### The unpack half -/

theorem Decoder.unpack_byte0 {d : Decoder} (hphase : d.phase = .byte0) (b : Byte) :
    d.unpack b = ({ d with h0 := b, phase := .byte1 }, none) := by
  simp [Decoder.unpack, hphase]

theorem Decoder.unpack_byte1 {d : Decoder} (hphase : d.phase = .byte1) (b : Byte) :
    d.unpack b = ({ d with nib := byteLow4 b, phase := .byte2 }, some (codeA d.h0 b)) := by
  simp [Decoder.unpack, hphase]

theorem Decoder.unpack_byte2 {d : Decoder} (hphase : d.phase = .byte2) (b : Byte) :
    d.unpack b = ({ d with phase := .byte0 }, some (codeB d.nib b)) := by
  simp [Decoder.unpack, hphase]

/-- Settles O47, by the phase. -/
theorem unpackHalf : Obligations.UnpackHalf := fun b _ =>
  ⟨fun h => Decoder.unpack_byte0 h b, fun h => Decoder.unpack_byte1 h b, fun h => Decoder.unpack_byte2 h b, rfl⟩

/-- Two bytes from a group boundary leave B's high nibble waiting. -/
theorem Decoder.unpack_two {d : Decoder} (hphase : d.phase = .byte0) (x y : Byte) :
    ((d.unpack x).1.unpack y).1 = { d with h0 := x, nib := byteLow4 y, phase := .byte2 } := by
  rw [Decoder.unpack_byte0 hphase, Decoder.unpack_byte1 rfl]

/-! ### Packing and unpacking -/

/-- Settles O48: the bytes put out are the wire format of `[a, b]` and of `[a]`, whose codewords the unpack half gives
back. -/
theorem packThenUnpack : Obligations.PackThenUnpack := by
  intro a b e d hpar hphase
  refine ⟨⟨_, _, _, ?_, ?_, unpackedOver_wirePack [a, b] d hphase, ?_⟩,
    ⟨_, _, ?_, ?_, unpackedOver_wirePack [a] d hphase, ?_⟩⟩
  · rw [Encoder.pack_group hpar, Encoder.emit_out]
  · rw [Encoder.pack_group hpar]
  · rw [Decoder.unpack_two hphase, Decoder.unpack_byte2 rfl]
  · rw [Encoder.pack_packFlush hpar, Encoder.emit_out]
  · exact Encoder.packFlush_par _
  · rw [Decoder.unpack_two hphase, Decoder.unpackEnd]

/-! ### ENC.END -/

/-- END in EMPTY at a group boundary has nothing to pack or flush. -/
theorem Encoder.finish_of_empty {e : Encoder} (hstate : e.state = .empty) (hpar : e.par = false) :
    e.finish = { e with state := .done, out := e.out ++ [.eos] } := by
  rw [Encoder.finish, if_neg (by simp [hstate]), Encoder.packFlush_of_even hpar, Encoder.emit]

/-- END in RUN behind an A packs the match as B and has nothing left to flush. -/
theorem Encoder.finish_of_run_odd {e : Encoder} (hstate : e.state = .run) (hpar : e.par = true) :
    e.finish = { e with
      state := .done, par := false,
      out := e.out ++ [.byte (joinNibbles e.nib (codeHigh4 e.s)), .byte (codeLow8 e.s), .eos] } := by
  rw [Encoder.finish, if_pos hstate, Encoder.pack_of_odd hpar, Encoder.packFlush_of_even rfl]
  simp [Encoder.packB, Encoder.emit]

/-- END in RUN at a group boundary packs the match as a lone A. -/
theorem Encoder.finish_of_run_even {e : Encoder} (hstate : e.state = .run) (hpar : e.par = false) :
    e.finish = { e with
      state := .done, nib := codeLow4 e.s,
      out := e.out ++ [.byte (codeHigh8 e.s), .byte (joinNibbles (codeLow4 e.s) 0#4), .eos] } := by
  rw [Encoder.finish, if_pos hstate, Encoder.pack_packFlush hpar]
  simp [Encoder.emit, hpar]

/-- Settles O20, by STATE and PAR. -/
theorem encEndFlushes : Obligations.EncEndFlushes := by
  intro s
  refine ⟨fun hstate hpar => ?_, fun hstate hpar => ?_, fun hstate hpar => ?_⟩
  · rw [exec_encEnd_open s (.inl hstate), Encoder.finish_of_empty hstate hpar]
  · rw [exec_encEnd_open s (.inr hstate), Encoder.finish_of_run_odd hstate hpar]; rfl
  · rw [exec_encEnd_open s (.inr hstate), Encoder.finish_of_run_even hstate hpar]; rfl

/-! ### DEC.DATA at PHASE 0 -/

/-- Settles O29: the byte is held, no codeword is complete, and no codeword step runs. -/
theorem decDataHoldsFirstByte : Obligations.DecDataHoldsFirstByte := by
  intro b s hopen hphase
  rw [exec_decData_open s b hopen, Decoder.data, Decoder.unpack_byte0 hphase]
  rfl

end Sys2Proof.Machine
end

section
/-! SUPPORT. What each instruction of the encode engine does (R140 to R144): the dispatch test by test, START, ABORT and
DATA written out, and what each instruction leaves unchanged. -/

namespace Sys2Proof.Machine

/-! ### START and ABORT -/

/-- Settles O18: START writes the reset values, and STATUS and GEN are put together from those. -/
theorem encStartOpensStream : Obligations.EncStartOpensStream := by
  intro s
  refine ⟨_, exec_encStart s, ?_, ?_, ?_⟩
  · rw [Encoder.start_eq_reset]; rfl
  · exact (by decide : State.reset.status .enc = 0x01000000#32)
  · rw [Encoder.start_eq_reset]; rfl

theorem State.takeAbort_of_error {e : Engine} {s : State} (h : s.streamState e = .error) : s.takeAbort e = s := by
  rw [State.takeAbort, h]

theorem State.takeAbort_of_ne_error {e : Engine} {s : State} (h : s.streamState e ≠ .error) :
    s.takeAbort e = s.raiseFault e .abort :=
  (s.takeAbort_cases e).elim (fun ⟨herr, _⟩ => absurd herr h) And.right

/-- Settles O21: outside ERROR an error entry, in ERROR nothing. -/
theorem encAbortEntersError : Obligations.EncAbortEntersError :=
  fun _ => ⟨fun h => congrArg Host.Outcome.next (State.takeAbort_of_ne_error h),
    fun h => congrArg Host.Outcome.next (State.takeAbort_of_error h)⟩

/-! ### The dispatch -/

theorem exec_abortOf (e : Engine) (s : State) : exec (abortOf e) s = .next (s.takeAbort e) := by cases e <;> rfl

theorem State.gate_error {e : Engine} {s : State} (h : s.streamState e = .error)
    (body : Host.Outcome State Fault Refusal) : s.gate e body = .next s := by
  rw [State.gate, h]

/-- DATA in DONE raises SEQ (R201). -/
theorem exec_dataOf_done {e : Engine} {s : State} (h : s.streamState e = .done) (c : Byte) :
    exec (dataOf e c) s = .next (s.raiseFault e .seq) := by cases e <;> exact State.gate_done h _

/-- END in DONE raises SEQ (R201). -/
theorem exec_endOf_done {e : Engine} {s : State} (h : s.streamState e = .done) :
    exec (endOf e) s = .next (s.raiseFault e .seq) := by cases e <;> exact State.gate_done h _

/-- In ERROR every token but a well-formed START is taken and ignored (R204). -/
theorem takeToken_of_error {e : Engine} {s : State} (h : s.streamState e = .error) {t : Token} (ht : t ≠ 0x200#10) :
    takeToken e t s = .next s := by
  rcases decode_kinds t with ⟨_, _, hd⟩ | ⟨_, hd⟩ | ⟨hstart, _⟩ | ⟨_, hd⟩ | ⟨_, _, hd⟩
  case inr.inr.inl => exact absurd hstart ht
  case inr.inr.inr.inr =>
    obtain ⟨x, hx⟩ := hd e
    exact takeToken_reserved_ignored hx h
  all_goals rw [takeToken_ok e t s _ (hd e)]
  · cases e <;> exact State.gate_error h _
  · cases e <;> exact State.gate_error h _
  · rw [exec_abortOf, State.takeAbort_of_error h]

/-- The dispatch of either engine as its ordered tests, first match wins (R140, R160). -/
theorem takeToken_dispatch (e : Engine) (t : Token) (s : State) : takeToken e t s =
    if s.streamState e = .error then (if t = 0x200#10 then exec (startOf e) s else .next s)
    else if t.extractLsb' 8 2 ≠ 0b00#2 ∧ t.extractLsb' 0 8 ≠ 0x00#8 then .next (s.raiseFault e .badToken)
    else if t.extractLsb' 8 2 = 0b10#2 then exec (startOf e) s
    else if t.extractLsb' 8 2 = 0b11#2 then .next (s.raiseFault e .abort)
    else if s.streamState e = .done then .next (s.raiseFault e .seq)
    else if t.extractLsb' 8 2 = 0b00#2 then exec (dataOf e (t.extractLsb' 0 8)) s
    else exec (endOf e) s := by
  by_cases herr : s.streamState e = .error
  · rw [if_pos herr]
    split
    · next hstart => rw [hstart, takeToken_start]
    · next hne => exact takeToken_of_error herr hne
  rw [if_neg herr]
  rcases decode_kinds t with ⟨hop, _, hd⟩ | ⟨rfl, _⟩ | ⟨rfl, _⟩ | ⟨rfl, hd⟩ | ⟨hop, hp, hd⟩
  · rw [takeToken_ok e t s _ (hd e)]
    by_cases hdone : s.streamState e = .done
    · simp [hop, hdone, exec_dataOf_done hdone]
    · simp [hop, hdone, payloadOf]
  · rw [takeToken_finish]
    by_cases hdone : s.streamState e = .done
    · simp [hdone, exec_endOf_done hdone]
    · simp [hdone]
  · exact takeToken_start e s
  · rw [takeToken_ok e _ s _ (hd e), exec_abortOf, State.takeAbort_of_ne_error herr]
    rfl
  · obtain ⟨x, hx⟩ := hd e
    rw [takeToken_badToken hx herr, if_pos ⟨hop, hp⟩]

theorem StreamState.open_of_ne {x : StreamState} (herr : x ≠ .error) (hdone : x ≠ .done) : x = .empty ∨ x = .run := by
  cases x <;> simp_all

/-- Settles O10: the tests of the dispatch, after which DATA and END find the stream open. -/
theorem encDispatchOrder : Obligations.EncDispatchOrder := by
  intro t s
  rw [takeToken_dispatch]
  by_cases herr : s.enc.state = .error
  · simp only [State.streamState_enc, herr, if_true]; rfl
  by_cases hdone : s.enc.state = .done
  · simp only [State.streamState_enc, hdone, if_true]; rfl
  have hopen := StreamState.open_of_ne herr hdone
  rw [dataOf, endOf, exec_encData_open s _ hopen, exec_encEnd_open s hopen]
  rfl

/-! ### DATA -/

/-- A miss written out: the match's code goes out by PAR, and the insertion by NEXT (R142, R105, R121, R122). -/
theorem Encoder.miss_eq {e : Encoder} (hdom : e.dict.Domain) (u : Seq) (c : Byte) :
    e.miss .insertThenReseed u c =
      { e with
        s := baseCode c
        dict := if e.dict.next = 4095#12
          then { entries := [], next := 256#12, gen := e.dict.gen + 1#32 }
          else { entries := Memory.set e.dict.next.toNat u e.dict.entries,
                 next := e.dict.next + 1#12, gen := e.dict.gen }
        par := !e.par
        nib := if e.par then e.nib else codeLow4 e.s
        out := e.out ++ (if e.par
          then [.byte (joinNibbles e.nib (codeHigh4 e.s)), .byte (codeLow8 e.s)]
          else [.byte (codeHigh8 e.s)]) } := by
  rw [Encoder.miss, Encoder.pack_dict, Generation.insert_eq hdom]
  cases hpar : e.par with
  | false => rw [Encoder.pack_of_even hpar]; rfl
  | true => rw [Encoder.pack_of_odd hpar]; rfl

/-- In a freshly seeded generation every entry is a base entry (R100). -/
theorem Generation.Domain.seq_seeded {g : Generation} (h : g.Domain) (hnext : g.next = 256#12) {k : Code} {u : Seq}
    (hk : g.seq k = some u) : k.toNat < 256 ∧ u.length = 1 := by
  have hlt : k.toNat < 256 := by simpa [hnext] using h.lt_of_seq hk
  cases (g.seq_base k hlt).symm.trans hk
  exact ⟨hlt, rfl⟩

/-- Settles O19: in RUN the search tells a hit from a miss, and by the invariants it finds what is an entry. -/
theorem encDataMatchesGreedily : Obligations.EncDataMatchesGreedily := by
  intro c s hinv
  have hdom := hinv.enc.domain
  refine ⟨fun hempty => ?_, fun hrun => ?_⟩
  · rw [exec_encData_open s c (.inl hempty), Encoder.data_empty _ c _ hempty]
    rfl
  obtain ⟨u, hu⟩ := hinv.enc.held hrun
  have hexec := exec_encData_open s c (.inr hrun)
  refine ⟨u, hu, ?_, fun hnext => ⟨(hdom.seq_seeded hnext hu).1, fun k hk => ?_⟩, fun k hk => ?_, fun habsent => ?_⟩
  · rw [List.length_append]
    exact Nat.succ_le_succ (Generation.seq_length_le hdom hinv.enc.shape hu)
  · have h1 := (hdom.seq_seeded hnext hu).2
    have h2 := (hdom.seq_seeded hnext hk).2
    rw [List.length_append, h1] at h2
    cases h2
  · have hfind := (Generation.find_eq_some_iff hdom hinv.enc.shape).2 hk
    rcases Encoder.data_run c s.enc u hrun hu with ⟨j, hj, hdata⟩ | ⟨hnone, _⟩
    · cases hj.symm.trans hfind
      rw [hexec, hdata]
      rfl
    · cases hnone.symm.trans hfind
  · have hfind := (Generation.find_eq_none_iff hdom).2 habsent
    rcases Encoder.data_run c s.enc u hrun hu with ⟨j, hj, _⟩ | ⟨_, hdata⟩
    · cases hj.symm.trans hfind
    · rw [hexec, hdata, Encoder.miss_eq hdom]
      rfl

/-! ### What an instruction leaves unchanged -/

@[simp] theorem Generation.store_next (u : Seq) (g : Generation) : (g.store u).next = g.next := by
  unfold Generation.store; split <;> rfl

@[simp] theorem Generation.store_gen (u : Seq) (g : Generation) : (g.store u).gen = g.gen := by
  unfold Generation.store; split <;> rfl

/-- Storing at NEXT changes what no other code names (R102, R104). -/
theorem Generation.seq_store_other (u : Seq) {g : Generation} {k : Code} (hk : k ≠ g.next) :
    (g.store u).seq k = g.seq k := by
  unfold Generation.store
  split
  · rfl
  rcases Nat.lt_or_ge k.toNat nBase with hbase | hdyn
  · rw [Generation.seq_base _ k hbase, Generation.seq_base _ k hbase]
  · rw [Generation.seq_dyn _ k hdyn, Generation.seq_dyn _ k hdyn]
    exact Memory.get_set_other _ _ _ _ fun heq => hk (BitVec.eq_of_toNat_eq heq)

/-- Below the limit an insertion, into whatever generation, keeps the reseed count and every entry but the one at NEXT
(R102, R104, R105). -/
theorem Generation.insert_other {g : Generation} (h : g.next ≠ 4095#12) (u : Seq) :
    (g.insert .insertThenReseed u).gen = g.gen ∧
      ∀ k, k ≠ g.next → (g.insert .insertThenReseed u).seq k = g.seq k := by
  have hlt : (g.store u).next.toNat < 4095 := by
    have := mt (code_eq_limit_iff g.next).2 h
    have := g.next.isLt
    rw [Generation.store_next]
    omega
  rw [Generation.insert, Generation.advance_lt _ hlt]
  exact ⟨g.store_gen u, fun k hk => Generation.seq_store_other u hk⟩

/-- A miss puts something out (R142). -/
theorem Encoder.miss_out_ne (r : ReseedReading) (u : Seq) (c : Byte) (e : Encoder) : (e.miss r u c).out ≠ e.out := by
  intro hout
  have hlen : (e.pack e.s).out.length = e.out.length := congrArg List.length hout
  rw [Encoder.pack_out_length] at hlen
  split at hlen <;> omega

/-- Everything ENC.DATA can do: nothing (in ERROR), an error entry (in DONE), the move of the match to another code (by
the first byte or a hit), or a miss in RUN (R140, R142). -/
theorem exec_encData_cases {c : Byte} {s t : State} (h : exec (.encData c) s = .next t) :
    t = s ∨ t = s.raiseFault .enc .seq ∨
    (∃ k, t = { s with enc := { s.enc with s := k, state := .run } }) ∨
    (s.enc.state = .run ∧ ∃ u, t = { s with enc := s.enc.miss .insertThenReseed u c }) := by
  rcases s.gate_cases .enc (s.commitEnc (s.enc.data reseedReading c)) with ⟨_, hg⟩ | ⟨_, hg⟩ | ⟨hopen, hg⟩
  · cases hg.symm.trans h; exact .inl rfl
  · cases hg.symm.trans h; exact .inr (.inl rfl)
  replace h := hg.symm.trans h
  rcases hopen with hempty | hrun
  · rw [Encoder.data_empty _ c _ hempty] at h
    cases h
    exact .inr (.inr (.inl ⟨_, rfl⟩))
  · rw [State.streamState_enc] at hrun
    rcases Encoder.data_state (r := reseedReading) (c := c) (.inr hrun) with ⟨e, hdata, _⟩ | ⟨f, hdata⟩ <;>
      rw [hdata] at h <;> cases h
    rcases Encoder.data_ok_cases hdata with rfl | ⟨k, rfl⟩ | ⟨u, rfl⟩
    · exact .inr (.inr (.inl ⟨_, rfl⟩))
    · exact .inr (.inr (.inl ⟨k, by rw [← hrun]⟩))
    · exact .inr (.inr (.inr ⟨hrun, u, rfl⟩))

@[simp] theorem Encoder.finish_s (e : Encoder) : e.finish.s = e.s := by
  unfold Encoder.finish; split <;> simp

/-- END changes NIB only to pack the match as a lone A (R143). -/
theorem Encoder.finish_nib {e : Encoder} (h : e.state ≠ .run ∨ e.par = true) : e.finish.nib = e.nib := by
  by_cases hrun : e.state = .run
  · rw [Encoder.finish_of_run_odd hrun (h.resolve_left (not_not_intro hrun))]
  · simp [Encoder.finish, hrun]

/-- Everything ENC.END can do: nothing (in ERROR), an error entry (in DONE), or the end of the stream (R140, R143). -/
theorem exec_encEnd_cases {s t : State} (h : exec .encEnd s = .next t) :
    t = s ∨ t = s.raiseFault .enc .seq ∨ t = { s with enc := s.enc.finish } := by
  rcases s.gate_cases .enc (s.commitEnc (.ok s.enc.finish)) with ⟨_, hg⟩ | ⟨_, hg⟩ | ⟨_, hg⟩ <;>
    cases hg.symm.trans h
  exacts [.inl rfl, .inr (.inl rfl), .inr (.inr rfl)]

/-- Settles O22: an instruction runs on its own engine alone; there, by what it can do. -/
theorem encodeEngineFrame : Obligations.EncodeEngineFrame := by
  intro i s t hi h
  have hframe : t = { s with enc := t.enc } := (exec_frame h).trans (by rw [hi]; rfl)
  refine ⟨by rw [hframe], by rw [hframe], by rw [hframe], by rw [hframe], ?_, ?_, ?_, ?_⟩
  · rintro c rfl
    rcases exec_encData_cases h with rfl | rfl | ⟨k, rfl⟩ | ⟨hrun, u, rfl⟩
    case inr.inr.inr =>
      refine ⟨.inl (s.enc.pack_err s.enc.s), fun hnext => ?_, fun hne => absurd hrun hne,
        fun hout => absurd hout (s.enc.miss_out_ne _ u c)⟩
      rw [Encoder.miss_dict]
      exact Generation.insert_other hnext u
    all_goals refine ⟨?_, fun _ => ⟨rfl, fun _ _ => rfl⟩, fun _ => ⟨rfl, rfl, rfl, rfl⟩, fun _ => ⟨rfl, rfl, rfl⟩⟩
    exacts [.inl rfl, .inr rfl, .inl rfl]
  · rintro rfl
    rcases exec_encEnd_cases h with rfl | rfl | rfl
    · exact ⟨.inl rfl, rfl, rfl, fun _ => rfl⟩
    · exact ⟨.inr rfl, rfl, rfl, fun _ => rfl⟩
    · exact ⟨.inl s.enc.finish_err, s.enc.finish_dict, s.enc.finish_s, Encoder.finish_nib⟩
  · rintro rfl
    cases h
    rcases s.takeAbort_cases .enc with ⟨_, ha⟩ | ⟨_, ha⟩
    · rw [ha]
    · rw [ha]; rfl
  · rintro rfl
    cases h
    rfl

end Sys2Proof.Machine
end

section
/-! SUPPORT. R146: what is already out has no part in what the encode engine does, so a stream after START runs as it runs
after reset. -/

namespace Sys2Proof.Machine

/-! ### Items put out before -/

/-- The encode engine with the items `l` put out before those it has out. -/
def Encoder.after (l : List OutItem) (e : Encoder) : Encoder := { e with out := l ++ e.out }

@[simp] theorem Encoder.after_state (l : List OutItem) (e : Encoder) : (e.after l).state = e.state := rfl
@[simp] theorem Encoder.after_s (l : List OutItem) (e : Encoder) : (e.after l).s = e.s := rfl
@[simp] theorem Encoder.after_dict (l : List OutItem) (e : Encoder) : (e.after l).dict = e.dict := rfl

theorem Encoder.emit_after (items l : List OutItem) (e : Encoder) : (e.after l).emit items = (e.emit items).after l := by
  simp [Encoder.after, Encoder.emit]

theorem Encoder.pack_after (k : Code) (l : List OutItem) (e : Encoder) : (e.after l).pack k = (e.pack k).after l := by
  cases hpar : e.par with
  | false =>
    rw [Encoder.pack_of_even (e := e.after l) hpar, Encoder.pack_of_even hpar, Encoder.packA, Encoder.emit_after]
    rfl
  | true =>
    rw [Encoder.pack_of_odd (e := e.after l) hpar, Encoder.pack_of_odd hpar, Encoder.packB, Encoder.emit_after]
    rfl

theorem Encoder.packFlush_after (l : List OutItem) (e : Encoder) :
    (e.after l).packFlush = e.packFlush.after l := by
  cases hpar : e.par with
  | false => rw [Encoder.packFlush_of_even (e := e.after l) hpar, Encoder.packFlush_of_even hpar]
  | true => rw [Encoder.packFlush_of_odd (e := e.after l) hpar, Encoder.packFlush_of_odd hpar, Encoder.emit_after]; rfl

theorem Encoder.miss_after (r : ReseedReading) (u : Seq) (c : Byte) (l : List OutItem) (e : Encoder) :
    (e.after l).miss r u c = (e.miss r u c).after l := by
  rw [Encoder.miss, Encoder.after_s, Encoder.pack_after]
  rfl

theorem Encoder.data_after (r : ReseedReading) (c : Byte) (l : List OutItem) (e : Encoder) :
    (e.after l).data r c = (e.data r c).map (Encoder.after l) := by
  unfold Encoder.data
  rw [Encoder.after_state, Encoder.after_s, Encoder.after_dict]
  cases e.state with
  | empty => rfl
  | run | done | error =>
    cases e.dict.seq e.s with
    | none => rfl
    | some u =>
      dsimp only
      cases e.dict.find r (u ++ [c]) with
      | some k => rfl
      | none => exact congrArg Result.ok (e.miss_after r (u ++ [c]) c l)

theorem Encoder.finish_after (l : List OutItem) (e : Encoder) : (e.after l).finish = e.finish.after l := by
  unfold Encoder.finish
  rw [Encoder.after_state, Encoder.after_s, Encoder.pack_after]
  split <;> dsimp only <;> rw [Encoder.packFlush_after, ← Encoder.emit_after] <;> rfl

/-- The machine with the items `l` put out by the encode engine before those it has out. -/
def State.encAfter (l : List OutItem) (s : State) : State := { s with enc := s.enc.after l }

theorem State.commitEnc_encAfter (l : List OutItem) (s : State) (r : Result Encoder) :
    (s.encAfter l).commitEnc (r.map (Encoder.after l)) = mapNext (State.encAfter l) (s.commitEnc r) := by
  cases r <;> rfl

/-! ### Tokens of the encode engine -/

/-- A token does the same behind whatever is already out: the tests of the dispatch do not read it, and what they lead to
does not either. -/
theorem takeToken_encAfter (l : List OutItem) (t : Token) (s : State) :
    takeToken .enc t (s.encAfter l) = mapNext (State.encAfter l) (takeToken .enc t s) := by
  have hdata (c : Byte) : (s.encAfter l).commitEnc ((s.encAfter l).enc.data .insertThenReseed c) =
      mapNext (State.encAfter l) (s.commitEnc (s.enc.data .insertThenReseed c)) := by
    rw [← State.commitEnc_encAfter, ← Encoder.data_after]; rfl
  have hend : (s.encAfter l).commitEnc (.ok (s.encAfter l).enc.finish) =
      mapNext (State.encAfter l) (s.commitEnc (.ok s.enc.finish)) := by
    rw [← State.commitEnc_encAfter]
    exact congrArg (fun e => (s.encAfter l).commitEnc (.ok e)) (s.enc.finish_after l)
  rw [encDispatchOrder, encDispatchOrder, hdata, hend, show (s.encAfter l).enc.state = s.enc.state from rfl]
  split_ifs <;> rfl

/-- What commutes with the taking of one token commutes with the taking of several. -/
theorem takeTokens_mapNext {e : Engine} {f : State → State}
    (h : ∀ t s, takeToken e t (f s) = mapNext f (takeToken e t s)) (ts : List Token) (s : State) :
    takeTokens e ts (f s) = mapNext f (takeTokens e ts s) := by
  induction ts generalizing s with
  | nil => rfl
  | cons t ts ih =>
    rw [takeTokens, takeTokens, h]
    cases takeToken e t s with
    | next s' => exact ih s'
    | fault _ | refused _ => rfl

/-- START leaves the encode engine as reset does, behind what is already out (R141). -/
theorem State.enc_start_eq (s : State) :
    { s with enc := s.enc.start } = s.withEngine .enc (State.reset.encAfter s.enc.out) := by
  rw [Encoder.start_eq_reset]
  exact congrArg (fun l => { s with enc := { Encoder.reset with out := l } }) (List.append_nil s.enc.out).symm

/-- Settles O27: the state is the one that the tokens lead to from reset, which they do because they keep the invariants;
and START leads to reset, behind what is already out. -/
theorem encoderIsDeterminedByTokens : Obligations.EncoderIsDeterminedByTokens := by
  intro ts
  obtain ⟨a, htake, _⟩ := State.Inv.takeTokens resetMeetsInvariants .enc ts
  refine ⟨a.enc, fun s => ?_, ?_⟩
  · rw [takeTokens_cons (takeToken_encStart s), State.enc_start_eq]
    have hafter := takeTokens_mapNext (takeToken_encAfter s.enc.out) ts State.reset
    rw [htake] at hafter
    exact takeTokens_withEngine_next hafter s
  · have hself := takeTokens_withEngine_next htake State.reset
    rw [State.withEngine_self] at hself
    exact hself

end Sys2Proof.Machine
end

section
/-! SUPPORT. What each instruction of the decode engine does (R160 to R165): START, END and ABORT written out, the
dispatch test by test, the codeword step, and what each instruction leaves unchanged. -/

namespace Sys2Proof.Machine

/-! ### START, END and ABORT -/

/-- Settles O28: START writes the reset values, and STATUS and GEN are put together from those. -/
theorem decStartOpensStream : Obligations.DecStartOpensStream := by
  intro s
  refine ⟨_, exec_decStart s, ?_, ?_, ?_⟩
  · rw [Decoder.start_eq_reset]; rfl
  · exact (by decide : State.reset.status .dec = 0x01000000#32)
  · rw [Decoder.start_eq_reset]; rfl

theorem Decoder.finish_eq (d : Decoder) : d.finish = { d with state := .done, out := d.out ++ [.eos] } := rfl

/-- Settles O32: the gate lets END through, and UnpackEnd leaves the unpack half as it is in every phase. -/
theorem decEndPutsOutEos : Obligations.DecEndPutsOutEos := by
  intro s hopen
  rw [exec_decEnd_open s hopen, Decoder.finish_eq]

/-- Settles O33: outside ERROR an error entry, in ERROR nothing. -/
theorem decAbortEntersError : Obligations.DecAbortEntersError :=
  fun _ => ⟨fun h => congrArg Host.Outcome.next (State.takeAbort_of_ne_error h),
    fun h => congrArg Host.Outcome.next (State.takeAbort_of_error h)⟩

/-! ### The dispatch -/

/-- Settles O11: the tests of the dispatch, after which DATA and END find the stream open. -/
theorem decDispatchOrder : Obligations.DecDispatchOrder := by
  intro t s
  rw [takeToken_dispatch]
  by_cases herr : s.dec.state = .error
  · simp only [State.streamState_dec, herr, if_true]; rfl
  by_cases hdone : s.dec.state = .done
  · simp only [State.streamState_dec, hdone, if_true]; rfl
  have hopen := StreamState.open_of_ne herr hdone
  rw [dataOf, endOf, exec_decData_open s _ hopen, exec_decEnd_open s hopen]
  rfl

/-! ### The codeword step -/

/-- The sequences of a codeword step on `k` in RUN: `e` is put out and `w` is inserted. From NEXT up both are PREV and its
own first byte; below NEXT `e` is the table's entry, and `w` is PREV and the entry's first byte (R165, R167). -/
def Decoder.StepSeqs (d : Decoder) (k : Code) (e w : Seq) : Prop :=
  (d.table.next.toNat ≤ k.toNat → (∃ x rest, d.prev = x :: rest ∧ w = d.prev ++ [x]) ∧ e = w) ∧
  (k.toNat < d.table.next.toNat → d.table.seq k = some e ∧ ∃ x rest, e = x :: rest ∧ w = d.prev ++ [x])

/-- A codeword step in RUN stops the model, or it ends with the sequences of the rule. -/
theorem Decoder.decodeCode_run_cases {d : Decoder} (hrun : d.state = .run) (k : Code) :
    (∃ f, d.decodeCode .insertThenReseed .literal k = .stop f) ∨
    ∃ e w, d.StepSeqs k e w ∧ d.decodeCode .insertThenReseed .literal k = d.putSeq .insertThenReseed w e := by
  rw [Decoder.decodeCode_run k d hrun]
  split
  · next hlt =>
    rw [Decoder.codeInTable]
    cases hseq : d.table.seq k with
    | none => exact .inl ⟨_, rfl⟩
    | some e =>
      cases e with
      | nil => exact .inl ⟨_, rfl⟩
      | cons x rest =>
        exact .inr ⟨_, _, ⟨fun hle => absurd hlt (Nat.not_lt.2 hle), fun _ => ⟨hseq, x, rest, rfl, rfl⟩⟩, rfl⟩
  · next hnlt =>
    rw [Decoder.codeAtNext]
    cases hprev : d.prev with
    | nil => exact .inl ⟨_, rfl⟩
    | cons x rest =>
      exact .inr ⟨_, _, ⟨fun _ => ⟨⟨x, rest, hprev, by rw [hprev]⟩, rfl⟩, fun hlt => absurd hlt hnlt⟩, rfl⟩

/-- By the invariants it does not stop: the table holds every code below NEXT, and no sequence is empty (R44). -/
theorem Decoder.Inv.decodeCode_run {d : Decoder} (h : d.Inv) (hrun : d.state = .run) (k : Code) :
    ∃ e w, d.StepSeqs k e w ∧ d.decodeCode .insertThenReseed .literal k = d.putSeq .insertThenReseed w e := by
  refine (Decoder.decodeCode_run_cases hrun k).resolve_left ?_
  rintro ⟨f, hstop⟩
  have hsafe := h.decodeCode (.inr hrun) k
  rw [hstop] at hsafe
  exact hsafe

/-- What a codeword step on an open stream completes with (R165, R168). -/
theorem Decoder.decodeCode_ok_cases {d d' : Decoder} {k : Code} (hopen : d.state = .empty ∨ d.state = .run)
    (h : d.decodeCode .insertThenReseed .literal k = .ok d') :
    (d.state = .empty ∧ d' = { d.emit [.byte (codeLow8 k)] with prev := [codeLow8 k], state := .run }) ∨
    (d.state = .run ∧ ∃ w e : Seq,
      d' = { d.emit (e.map .byte) with table := d.table.insert .insertThenReseed w, prev := e }) := by
  rcases hopen with hempty | hrun
  · rw [Decoder.decodeCode_empty _ _ k d hempty, Decoder.firstCode] at h
    split at h <;> cases h
    exact .inl ⟨hempty, rfl⟩
  · obtain ⟨f, hstop⟩ | ⟨e, w, _, hput⟩ := Decoder.decodeCode_run_cases hrun k
    · cases hstop.symm.trans h
    · rw [hput] at h
      rcases d.putSeq_cases .insertThenReseed w e with ⟨_, hput⟩ | ⟨_, hput⟩ <;> cases hput.symm.trans h
      exact .inr ⟨hrun, w, e, rfl⟩

/-- DATA that completes a codeword on an open stream is the codeword step, with the byte taken in if it completes. -/
theorem exec_decData_code {s : State} {b : Byte} {x : Decoder} {k : Code}
    (hopen : s.dec.state = .empty ∨ s.dec.state = .run) (hu : s.dec.unpack b = (s.dec.withUnpack x, some k)) :
    exec (.decData b) s =
      s.commitDec ((s.dec.decodeCode .insertThenReseed .literal k).map (·.withUnpack x)) := by
  rw [exec_decData_open s b hopen, Decoder.data, hu]
  exact congrArg s.commitDec (s.dec.decodeCode_withUnpack _ _ k x)

/-- Taking a byte in changes the unpack half alone. -/
theorem Decoder.eq_withUnpack_of_unpack {b : Byte} {d d' : Decoder} {c : Option Code} (hu : d.unpack b = (d', c)) :
    ∃ x, d' = d.withUnpack x := by
  obtain ⟨x, hx | ⟨_, hx⟩⟩ := d.unpack_eq b <;> cases hx.symm.trans hu <;> exact ⟨x, rfl⟩

/-- Settles O30: by STATE, and in RUN by the length of the sequence to insert. -/
theorem decDataDecodesCodeword : Obligations.DecDataDecodesCodeword := by
  intro b s d k hinv hu
  obtain ⟨x, rfl⟩ := Decoder.eq_withUnpack_of_unpack hu
  refine ⟨fun hempty => ?_, fun hrun => ?_⟩
  · rw [exec_decData_code (.inl hempty) hu, Decoder.decodeCode_empty _ _ k _ hempty, Decoder.firstCode]
    refine ⟨fun hle => ?_, fun hlt => ?_⟩
    · rw [if_pos (c := nBase ≤ k.toNat) hle]; rfl
    · rw [if_neg (c := nBase ≤ k.toNat) (Nat.not_le.2 hlt)]; rfl
  · obtain ⟨e, w, ⟨habove, hbelow⟩, hput⟩ := hinv.dec.decodeCode_run hrun k
    refine ⟨e, w, habove, hbelow, fun hlong => ?_, fun hfits => ?_⟩ <;>
      rw [exec_decData_code (.inr hrun) hu, hput, Decoder.putSeq]
    · rw [if_pos (c := maxSeqLen < w.length) hlong]; rfl
    · rw [if_neg (c := maxSeqLen < w.length) (Nat.not_lt.2 hfits), Generation.insert_eq hinv.dec.domain]; rfl

/-- Settles O31: it is the codeword step from NEXT up, and only the code NEXT gets an entry. -/
theorem codeAboveNextIsDecoded : Obligations.CodeAboveNextIsDecoded := by
  intro b s d k x rest hinv hu hrun habove hprev hlen
  have hdom := hinv.dec.domain
  obtain ⟨e, w, hseqs, _, _, hfits⟩ := (decDataDecodesCodeword b s d k hinv hu).2 hrun
  obtain ⟨⟨y, _, hprev', rfl⟩, rfl⟩ := hseqs (Nat.le_of_lt habove)
  cases hprev.symm.trans hprev'
  have hexec := hfits (by rw [List.length_append]; exact hlen)
  rw [← Generation.insert_eq hdom] at hexec
  obtain ⟨_, rfl⟩ := Decoder.eq_withUnpack_of_unpack hu
  have hseq := Generation.seq_insert_lt hdom (s.dec.prev ++ [x]) (Nat.lt_of_lt_of_le habove (Nat.le_of_lt_succ k.isLt))
  refine ⟨_, hexec, hinv.dec.err_none (.inr hrun), hrun, rfl, rfl, (hseq _).trans (if_pos rfl), ?_⟩
  have hk : k ≠ s.dec.table.next := by rintro rfl; exact Nat.lt_irrefl _ habove
  refine (hseq k).trans ((if_neg hk).trans ?_)
  exact Option.eq_none_iff_forall_ne_some.2 fun u hentry => Nat.lt_asymm habove (hdom.lt_of_seq hentry)

/-! ### What an instruction leaves unchanged -/

theorem Decoder.unpack_h0 {d : Decoder} (hphase : d.phase ≠ .byte0) (b : Byte) : (d.unpack b).1.h0 = d.h0 := by
  rcases d.unpack_cases b with ⟨h0, _⟩ | ⟨_, hu⟩ | ⟨_, hu⟩
  · exact absurd h0 hphase
  · rw [hu]
  · rw [hu]

/-- Outside PHASE 0 a byte completes a codeword (R126, R127). -/
theorem Decoder.unpack_ne_none {d : Decoder} (hphase : d.phase ≠ .byte0) (b : Byte) : (d.unpack b).2 ≠ none := by
  rcases d.unpack_cases b with ⟨h0, _⟩ | ⟨_, hu⟩ | ⟨_, hu⟩
  · exact absurd h0 hphase
  · rw [hu]; exact Option.some_ne_none _
  · rw [hu]; exact Option.some_ne_none _

/-- Everything DEC.DATA can do: nothing (in ERROR), an error entry, the holding of byte0, or a codeword step that completes
(R160, R162). -/
theorem exec_decData_cases {b : Byte} {s t : State} (h : exec (.decData b) s = .next t) :
    t = s ∨ (∃ c, t = s.raiseFault .dec c) ∨
    (s.dec.phase = .byte0 ∧ t = { s with dec := { s.dec with h0 := b, phase := .byte1 } }) ∨
    (s.dec.phase ≠ .byte0 ∧ (s.dec.state = .empty ∨ s.dec.state = .run) ∧
      ∃ x k d, s.dec.unpack b = (s.dec.withUnpack x, some k) ∧
        s.dec.decodeCode .insertThenReseed .literal k = .ok d ∧ t = { s with dec := d.withUnpack x }) := by
  rcases s.gate_cases .dec (s.commitDec (s.dec.data reseedReading aboveNextPolicy b)) with
    ⟨_, hg⟩ | ⟨_, hg⟩ | ⟨hopen, _⟩
  · cases hg.symm.trans h; exact .inl rfl
  · cases hg.symm.trans h; exact .inr (.inl ⟨_, rfl⟩)
  by_cases hphase : s.dec.phase = .byte0
  · cases (decDataHoldsFirstByte b s hopen hphase).symm.trans h
    exact .inr (.inr (.inl ⟨hphase, rfl⟩))
  · replace h := (takeToken_ok .dec _ s _ (decode_data .dec b)).trans h
    obtain ⟨x, hu, _⟩ | ⟨x, k, hu, ⟨d, hd, rfl⟩ | ⟨c, _, rfl⟩⟩ := takeToken_decData_cases hopen h
    · exact absurd (congrArg Prod.snd hu) (Decoder.unpack_ne_none hphase b)
    · exact .inr (.inr (.inr ⟨hphase, hopen, x, k, d, hu, hd, rfl⟩))
    · exact .inr (.inl ⟨c, rfl⟩)

/-- Everything DEC.END can do: nothing (in ERROR), an error entry (in DONE), or the end of the stream (R160, R163). -/
theorem exec_decEnd_cases {s t : State} (h : exec .decEnd s = .next t) :
    t = s ∨ t = s.raiseFault .dec .seq ∨ t = { s with dec := s.dec.finish } := by
  rcases s.gate_cases .dec (s.commitDec (.ok s.dec.finish)) with ⟨_, hg⟩ | ⟨_, hg⟩ | ⟨_, hg⟩ <;>
    cases hg.symm.trans h
  exacts [.inl rfl, .inr (.inl rfl), .inr (.inr rfl)]

/-- Settles O34: an instruction runs on its own engine alone; there, by what it can do. -/
theorem decodeEngineFrame : Obligations.DecodeEngineFrame := by
  intro i s t hi h
  have hframe : t = { s with dec := t.dec } := (exec_frame h).trans (by rw [hi]; rfl)
  refine ⟨by rw [hframe], by rw [hframe], by rw [hframe], by rw [hframe], ?_, ?_, ?_, ?_⟩
  · rintro b rfl
    rcases exec_decData_cases h with rfl | ⟨c, rfl⟩ | ⟨hphase, rfl⟩ | ⟨hphase, hopen, x, k, d, hu, hd, rfl⟩
    case inr.inr.inr =>
      have hh0 : x.h0 = s.dec.h0 := (congrArg (·.1.h0) hu).symm.trans (Decoder.unpack_h0 hphase b)
      have hnib (h2 : s.dec.phase = .byte2) : x.nib = s.dec.nib :=
        (congrArg (·.1.nib) hu).symm.trans (by rw [Decoder.unpack_byte2 h2])
      rcases Decoder.decodeCode_ok_cases hopen hd with ⟨_, rfl⟩ | ⟨hrun, w, e, rfl⟩
      · exact ⟨.inl rfl, fun _ => ⟨rfl, fun _ _ => rfl⟩, fun _ => rfl, fun h0 => absurd h0 hphase, fun _ => hh0, hnib⟩
      · exact ⟨.inl rfl, fun hnext => Generation.insert_other hnext w, fun hkeep => absurd hkeep (by simp [hrun, hphase]),
          fun h0 => absurd h0 hphase, fun _ => hh0, hnib⟩
    all_goals
      refine ⟨?_, fun _ => ⟨rfl, fun _ _ => rfl⟩, fun _ => rfl, fun _ => ⟨rfl, rfl, rfl⟩, fun hne => ?_, fun _ => rfl⟩
    exacts [.inl rfl, rfl, .inr rfl, rfl, .inl rfl, absurd hphase hne]
  · rintro rfl
    rcases exec_decEnd_cases h with rfl | rfl | rfl
    · exact ⟨rfl, .inl rfl⟩
    · exact ⟨rfl, .inr rfl⟩
    · exact ⟨rfl, .inl rfl⟩
  · rintro rfl
    cases h
    rcases s.takeAbort_cases .dec with ⟨_, ha⟩ | ⟨_, ha⟩
    · rw [ha]
    · rw [ha]; rfl
  · rintro rfl
    cases h
    rfl

end Sys2Proof.Machine
end

section
/-! SUPPORT. R170: what is already out has no part in what the decode engine does, so a stream after START runs as it runs
after reset. -/

namespace Sys2Proof.Machine

/-! ### Items put out before -/

/-- The decode engine with the items `l` put out before those it has out. -/
def Decoder.after (l : List OutItem) (d : Decoder) : Decoder := { d with out := l ++ d.out }

@[simp] theorem Decoder.after_state (l : List OutItem) (d : Decoder) : (d.after l).state = d.state := rfl
@[simp] theorem Decoder.after_table (l : List OutItem) (d : Decoder) : (d.after l).table = d.table := rfl
@[simp] theorem Decoder.after_prev (l : List OutItem) (d : Decoder) : (d.after l).prev = d.prev := rfl

theorem Decoder.emit_after (items l : List OutItem) (d : Decoder) : (d.after l).emit items = (d.emit items).after l := by
  simp [Decoder.after, Decoder.emit]

theorem Decoder.unpack_after (b : Byte) (l : List OutItem) (d : Decoder) :
    (d.after l).unpack b = ((d.unpack b).1.after l, (d.unpack b).2) := by
  cases hphase : d.phase with
  | byte0 => rw [Decoder.unpack_byte0 (d := d.after l) hphase, Decoder.unpack_byte0 hphase]; rfl
  | byte1 => rw [Decoder.unpack_byte1 (d := d.after l) hphase, Decoder.unpack_byte1 hphase]; rfl
  | byte2 => rw [Decoder.unpack_byte2 (d := d.after l) hphase, Decoder.unpack_byte2 hphase]; rfl

theorem Decoder.putSeq_after (r : ReseedReading) (w e : Seq) (l : List OutItem) (d : Decoder) :
    (d.after l).putSeq r w e = (d.putSeq r w e).map (Decoder.after l) := by
  unfold Decoder.putSeq
  rw [Decoder.emit_after]
  split <;> rfl

theorem Decoder.codeAtNext_after (r : ReseedReading) (l : List OutItem) (d : Decoder) :
    (d.after l).codeAtNext r = (d.codeAtNext r).map (Decoder.after l) := by
  unfold Decoder.codeAtNext
  rw [Decoder.after_prev]
  cases d.prev with
  | nil => rfl
  | cons x rest => exact d.putSeq_after r _ _ l

theorem Decoder.codeInTable_after (r : ReseedReading) (k : Code) (l : List OutItem) (d : Decoder) :
    (d.after l).codeInTable r k = (d.codeInTable r k).map (Decoder.after l) := by
  unfold Decoder.codeInTable
  rw [Decoder.after_table, Decoder.after_prev]
  split
  · rfl
  · rfl
  · exact d.putSeq_after r _ _ l

theorem Decoder.firstCode_after (k : Code) (l : List OutItem) (d : Decoder) :
    (d.after l).firstCode k = (d.firstCode k).map (Decoder.after l) := by
  unfold Decoder.firstCode
  rw [Decoder.emit_after]
  split <;> rfl

/-- The codeword step does the same behind whatever is already out. -/
theorem Decoder.decodeCode_after (r : ReseedReading) (p : AboveNextPolicy) (k : Code) (l : List OutItem) (d : Decoder) :
    (d.after l).decodeCode r p k = (d.decodeCode r p k).map (Decoder.after l) := by
  unfold Decoder.decodeCode
  rw [Decoder.after_state, Decoder.after_table]
  cases d.state with
  | empty => exact d.firstCode_after k l
  | run | done | error =>
    dsimp only
    split_ifs
    · exact d.codeInTable_after r k l
    · rfl
    · exact d.codeAtNext_after r l

theorem Decoder.data_after (r : ReseedReading) (p : AboveNextPolicy) (b : Byte) (l : List OutItem) (d : Decoder) :
    (d.after l).data r p b = (d.data r p b).map (Decoder.after l) := by
  rw [Decoder.data, Decoder.data, Decoder.unpack_after]
  obtain ⟨x, hu | ⟨k, hu⟩⟩ := d.unpack_eq b <;> rw [hu]
  · rfl
  · exact (d.withUnpack x).decodeCode_after r p k l

theorem Decoder.finish_after (l : List OutItem) (d : Decoder) : (d.after l).finish = d.finish.after l :=
  Decoder.emit_after _ _ { d with state := .done }

/-- The machine with the items `l` put out by the decode engine before those it has out. -/
def State.decAfter (l : List OutItem) (s : State) : State := { s with dec := s.dec.after l }

theorem State.commitDec_decAfter (l : List OutItem) (s : State) (r : Result Decoder) :
    (s.decAfter l).commitDec (r.map (Decoder.after l)) = mapNext (State.decAfter l) (s.commitDec r) := by
  cases r <;> rfl

/-! ### Tokens of the decode engine -/

/-- A token does the same behind whatever is already out: the tests of the dispatch do not read it, and what they lead to
does not either. -/
theorem takeToken_decAfter (l : List OutItem) (t : Token) (s : State) :
    takeToken .dec t (s.decAfter l) = mapNext (State.decAfter l) (takeToken .dec t s) := by
  have hdata (b : Byte) : (s.decAfter l).commitDec ((s.decAfter l).dec.data .insertThenReseed .literal b) =
      mapNext (State.decAfter l) (s.commitDec (s.dec.data .insertThenReseed .literal b)) := by
    rw [← State.commitDec_decAfter, ← Decoder.data_after]; rfl
  have hend : (s.decAfter l).commitDec (.ok (s.decAfter l).dec.finish) =
      mapNext (State.decAfter l) (s.commitDec (.ok s.dec.finish)) := by
    rw [← State.commitDec_decAfter]
    exact congrArg (fun d => (s.decAfter l).commitDec (.ok d)) (s.dec.finish_after l)
  rw [decDispatchOrder, decDispatchOrder, hdata, hend, show (s.decAfter l).dec.state = s.dec.state from rfl]
  split_ifs <;> rfl

/-- START leaves the decode engine as reset does, behind what is already out (R161). -/
theorem State.dec_start_eq (s : State) :
    { s with dec := s.dec.start } = s.withEngine .dec (State.reset.decAfter s.dec.out) := by
  rw [Decoder.start_eq_reset]
  exact congrArg (fun l => { s with dec := { Decoder.reset with out := l } }) (List.append_nil s.dec.out).symm

/-- Settles O36: the state is the one that the tokens lead to from reset, which they do because they keep the invariants;
and START leads to reset, behind what is already out. -/
theorem decoderIsDeterminedByTokens : Obligations.DecoderIsDeterminedByTokens := by
  intro ts
  obtain ⟨a, htake, _⟩ := State.Inv.takeTokens resetMeetsInvariants .dec ts
  refine ⟨a.dec, fun s => ?_, ?_⟩
  · rw [takeTokens_cons (takeToken_decStart s), State.dec_start_eq]
    have hafter := takeTokens_mapNext (takeToken_decAfter s.dec.out) ts State.reset
    rw [htake] at hafter
    exact takeTokens_withEngine_next hafter s
  · have hself := takeTokens_withEngine_next htake State.reset
    rw [State.withEngine_self] at hself
    exact hself

end Sys2Proof.Machine
end

section
/-! SUPPORT. The ERROR state of an engine and its ways out (R204, R206), the turn in which nothing is taken (R212), and the
level outputs (R208, R221). -/

namespace Sys2Proof.Machine

/-! ### ERROR and its ways out -/

/-- START completes in every state and opens a stream without an error, on a freshly seeded generation (R141, R161). -/
theorem exec_startOf_fresh (e : Engine) (s : State) :
    ∃ s', exec (startOf e) s = .next s' ∧ s'.streamState e = .empty ∧ s'.cause e = .none ∧
      s'.generation e = Generation.reset := by
  cases e with
  | enc => exact ⟨_, exec_encStart s, rfl, rfl, rfl⟩
  | dec => exact ⟨_, exec_decStart s, rfl, rfl, rfl⟩

/-- Settles O12: START opens a stream in every state, and in ERROR any other token is ignored. -/
theorem errorStateIgnoresTokens : Obligations.ErrorStateIgnoresTokens := by
  intro e t s herr
  obtain ⟨s', hexec, hempty, hnone, _⟩ := exec_startOf_fresh e s
  refine ⟨?_, takeToken_of_error herr⟩
  rintro rfl
  exact ⟨takeToken_start e s, s', hexec, hempty, hnone⟩

/-- The token that takes an engine out of ERROR is a well-formed START on its own channel: the other engine's tokens leave
its STATE alone, and it ignores its own other tokens (R204, R206). -/
theorem takeToken_leaves_error {e e' : Engine} {t : Token} {s s' : State} (herr : s.streamState e = .error)
    (htake : takeToken e' t s = .next s') (hleft : s'.streamState e ≠ .error) : e' = e ∧ t = 0x200#10 := by
  obtain rfl : e = e' := by
    by_contra hne
    exact hleft ((takeToken_streamState_other htake hne).trans herr)
  refine ⟨rfl, ?_⟩
  by_contra ht
  cases (takeToken_of_error herr ht).symm.trans htake
  exact hleft herr

/-- Settles O15: the token is the engine's own START, which opens a fresh stream; and reset forgets the state before. -/
theorem errorLeftByStartOrReset : Obligations.ErrorLeftByStartOrReset := by
  refine ⟨fun e e' t s s' herr htake hleft => ?_, fun _ => ⟨rfl, rfl⟩⟩
  obtain ⟨rfl, rfl⟩ := takeToken_leaves_error herr htake hleft
  obtain ⟨fresh, hexec, hempty, _, hgen⟩ := exec_startOf_fresh e' s
  rw [takeToken_start, hexec] at htake
  cases htake
  exact ⟨rfl, rfl, hempty, by rintro rfl; exact hgen, by rintro rfl; exact hgen⟩

/-! ### The turn without a token -/

theorem State.take_nil {e : Engine} {s : State} (h : s.channel e = []) : s.take e = (none, s) := by
  rw [State.take, h]

theorem step_of_fetch_none {s s' : State} (h : s.fetch = (none, s')) : step s = .next s' := by
  rw [step, h]

/-- Settles O7: an engine whose channel is empty takes nothing, whether its turn is scheduled or not. -/
theorem idleTurnKeepsState : Obligations.IdleTurnKeepsState := by
  refine ⟨fun s e rest hsched hch => ?_, fun s hsched henc hdec => ?_⟩
  · have hch' : State.channel e { s with sched := rest } = [] := by cases e <;> exact hch
    exact step_of_fetch_none ((State.fetch_scheduled hsched).trans (State.take_nil hch'))
  · have hfetch : s.fetch = s.take .dec := by rw [State.fetch, hsched, henc]
    exact step_of_fetch_none (hfetch.trans (State.take_nil hdec))

/-! ### The level outputs -/

@[simp] theorem State.doneLevel_eq_true {e : Engine} {s : State} : s.doneLevel e = true ↔ s.streamState e = .done :=
  beq_iff_eq

@[simp] theorem State.errorLevel_eq_true {e : Engine} {s : State} : s.errorLevel e = true ↔ s.streamState e = .error :=
  beq_iff_eq

theorem State.reset_streamState (e : Engine) : State.reset.streamState e = .empty := by cases e <;> rfl

/-- Settles O58: each level is a test of STATE, which is EMPTY after reset. -/
theorem levelOutputs : Obligations.LevelOutputs := by
  refine ⟨fun _ _ => ⟨State.doneLevel_eq_true, State.errorLevel_eq_true⟩, fun e => ⟨?_, ?_⟩⟩
  · rw [State.doneLevel, State.reset_streamState]; rfl
  · rw [State.errorLevel, State.reset_streamState]; rfl

end Sys2Proof.Machine
end

section
/-! SUPPORT. Hardware reset, compared with START on both engines (R220). -/

namespace Sys2Proof.Machine

/-- What START leaves, with its output taken away, is the reset value: output is all that START keeps (R141). -/
theorem Encoder.start_without_out (e : Encoder) : { e.start with out := [] } = Encoder.reset := by
  rw [Encoder.start_eq_reset]; rfl

/-- What START leaves, with its output taken away, is the reset value: output is all that START keeps (R161). -/
theorem Decoder.start_without_out (d : Decoder) : { d.start with out := [] } = Decoder.reset := by
  rw [Decoder.start_eq_reset]; rfl

/-- Settles O60: START on one engine leaves the other alone, so after both each holds what its own START left. -/
theorem resetIsStartOnBoth : Obligations.ResetIsStartOnBoth := by
  intro s
  have henc := exec_encStart s
  have hdec := exec_decStart { s with enc := s.enc.start }
  exact ⟨rfl, rfl, rfl, _, _, henc, hdec, s.enc.start_without_out.symm, s.dec.start_without_out.symm⟩

end Sys2Proof.Machine
end
